-- ==== Sys2Proof/Word.lean ====
section
/-! DEFINITION. The widths of CORE's values (00_scope.md R7, R10): every value is unsigned, and nothing is sign extended. -/

namespace Sys2Proof

/-- Eight bits: a V register, a timer, a memory byte, the field NN (R7, R21). -/
abbrev Byte := BitVec 8

/-- Sixteen bits: `I`, `pc`, a stack entry, an instruction word (R7, R23, R24, R30, R70). -/
abbrev Word := BitVec 16

/-- Four bits: a register selector X or Y, the row count N, a key id (R73, R212). -/
abbrev Nibble := BitVec 4

/-- Twelve bits: the field NNN (R73). -/
abbrev Addr12 := BitVec 12

end Sys2Proof
end

