-- ==== Sys2Proof/Syntax.lean ====
section
/-! DEFINITION. The instruction set: one constructor per row of spec/opcode_table.json (30_encoding.md R76), in its order. -/

namespace Sys2Proof

/-- The 34 instructions of R76. `x` and `y` select registers, `nn`, `nnn` and `n` are immediates (R73). -/
inductive Instr where
  /-- 00E0, CLS (R160). -/
  | cls
  /-- 00EE, RET (R100). -/
  | ret
  /-- 1NNN, JP NNN (R101). -/
  | jp (nnn : Addr12)
  /-- 2NNN, CALL NNN (R102). -/
  | call (nnn : Addr12)
  /-- 3XNN, SE VX, NN (R103). -/
  | seImm (x : Nibble) (nn : Byte)
  /-- 4XNN, SNE VX, NN (R104). -/
  | sneImm (x : Nibble) (nn : Byte)
  /-- 5XY0, SE VX, VY (R105). -/
  | seReg (x y : Nibble)
  /-- 6XNN, LD VX, NN (R121). -/
  | ldImm (x : Nibble) (nn : Byte)
  /-- 7XNN, ADD VX, NN (R122). -/
  | addImm (x : Nibble) (nn : Byte)
  /-- 8XY0, LD VX, VY (R123). -/
  | ldReg (x y : Nibble)
  /-- 8XY1, OR VX, VY (R124). -/
  | orReg (x y : Nibble)
  /-- 8XY2, AND VX, VY (R125). -/
  | andReg (x y : Nibble)
  /-- 8XY3, XOR VX, VY (R126). -/
  | xorReg (x y : Nibble)
  /-- 8XY4, ADD VX, VY (R127). -/
  | addReg (x y : Nibble)
  /-- 8XY5, SUB VX, VY (R128). -/
  | subReg (x y : Nibble)
  /-- 8XY6, SHR VX, VY (R129). -/
  | shr (x y : Nibble)
  /-- 8XY7, SUBN VX, VY (R130). -/
  | subn (x y : Nibble)
  /-- 8XYE, SHL VX, VY (R131). -/
  | shl (x y : Nibble)
  /-- 9XY0, SNE VX, VY (R106). -/
  | sneReg (x y : Nibble)
  /-- ANNN, LD I, NNN (R140). -/
  | ldI (nnn : Addr12)
  /-- BNNN, JP V0, NNN (R107). `x` is the top digit of `nnn`, read a second time as a selector (R73). -/
  | jpOffset (nnn : Addr12) (x : Nibble)
  /-- CXNN, RND VX, NN (R132). -/
  | rnd (x : Nibble) (nn : Byte)
  /-- DXYN, DRW VX, VY, N (R161). -/
  | drw (x y n : Nibble)
  /-- EX9E, SKP VX (R170). -/
  | skp (x : Nibble)
  /-- EXA1, SKNP VX (R171). -/
  | sknp (x : Nibble)
  /-- FX07, LD VX, DT (R173). -/
  | ldFromDt (x : Nibble)
  /-- FX0A, LD VX, K (R172). -/
  | ldKey (x : Nibble)
  /-- FX15, LD DT, VX (R174). -/
  | ldToDt (x : Nibble)
  /-- FX18, LD ST, VX (R175). -/
  | ldToSt (x : Nibble)
  /-- FX1E, ADD I, VX (R141). -/
  | addI (x : Nibble)
  /-- FX29, LD F, VX (R142). -/
  | ldGlyph (x : Nibble)
  /-- FX33, LD B, VX (R143). -/
  | ldDigits (x : Nibble)
  /-- FX55, LD [I], VX (R144). -/
  | storeRegs (x : Nibble)
  /-- FX65, LD VX, [I] (R145). -/
  | loadRegs (x : Nibble)
  deriving DecidableEq, Repr

end Sys2Proof
end

