-- ==== Sys2Proof/WellFormed.lean ====
section
/-! DEFINITION. Which terms of Instr stand for a word: the widths are in the types, and BNNN's two fields overlap (30_encoding.md R73). -/

namespace Sys2Proof

/-- Bits 11:8 of NNN, which BNNN also reads as X (R73, R107). -/
def topDigit (nnn : Addr12) : Nibble := nnn.extractLsb' 8 4

/-- The one check: the two overlapping fields of BNNN agree (R73). Every other term stands for a word. -/
def Instr.wf : Instr → Bool
  | .jpOffset nnn x => x == topDigit nnn
  | .cls | .ret | .jp _ | .call _ | .seImm _ _ | .sneImm _ _ | .seReg _ _ | .ldImm _ _ | .addImm _ _
  | .ldReg _ _ | .orReg _ _ | .andReg _ _ | .xorReg _ _ | .addReg _ _ | .subReg _ _ | .shr _ _ | .subn _ _
  | .shl _ _ | .sneReg _ _ | .ldI _ | .rnd _ _ | .drw _ _ _ | .skp _ | .sknp _ | .ldFromDt _ | .ldKey _
  | .ldToDt _ | .ldToSt _ | .addI _ | .ldGlyph _ | .ldDigits _ | .storeRegs _ | .loadRegs _ => true

end Sys2Proof
end

