-- ==== Sys2Proof/Decode.lean ====
section
/-! DEFINITION. Decoding (30_encoding.md R70 to R79): a total function on bytes that rejects by name, the opcode table R76 as data,
and after them the encoder. -/

namespace Sys2Proof

/-- Why bytes are not an instruction. -/
inductive DecodeError where
  /-- The word matches no row of R76 (R78). -/
  | unknownOpcode (w : Word)
  /-- Fewer than two bytes: every instruction is two (R70). -/
  | truncated (got : Nat)
  deriving DecidableEq, Repr

/-! The fields of a word, R11 and R72. -/

/-- OP = w[15:12]. -/
def opField (w : Word) : Nibble := w.extractLsb' 12 4
/-- X = w[11:8]. -/
def xField (w : Word) : Nibble := w.extractLsb' 8 4
/-- Y = w[7:4]. -/
def yField (w : Word) : Nibble := w.extractLsb' 4 4
/-- N = w[3:0]. -/
def nField (w : Word) : Nibble := w.extractLsb' 0 4
/-- NN = w[7:0]. -/
def nnField (w : Word) : Byte := w.extractLsb' 0 8
/-- NNN = w[11:0]. -/
def nnnField (w : Word) : Addr12 := w.extractLsb' 0 12

/-- The instruction word, the first byte in its high half (R57, R70). -/
def bigEndian (b0 b1 : Byte) : Word := b0 ++ b1

/-! The sub-opcodes of the families that have one, R74 and R75. -/

/-- Family 0 compares the whole word (R74, R77). -/
def decodeFamily0 (w : Word) : Except DecodeError Instr :=
  if w = 0x00E0#16 then .ok .cls
  else if w = 0x00EE#16 then .ok .ret
  else .error (.unknownOpcode w)

/-- Family 5 compares N (R74, R77). -/
def decodeFamily5 (w : Word) : Except DecodeError Instr :=
  if nField w = 0x0#4 then .ok (.seReg (xField w) (yField w)) else .error (.unknownOpcode w)

/-- Family 8 compares N (R74, R75). -/
def decodeFamily8 (w : Word) : Except DecodeError Instr :=
  if nField w = 0x0#4 then .ok (.ldReg (xField w) (yField w))
  else if nField w = 0x1#4 then .ok (.orReg (xField w) (yField w))
  else if nField w = 0x2#4 then .ok (.andReg (xField w) (yField w))
  else if nField w = 0x3#4 then .ok (.xorReg (xField w) (yField w))
  else if nField w = 0x4#4 then .ok (.addReg (xField w) (yField w))
  else if nField w = 0x5#4 then .ok (.subReg (xField w) (yField w))
  else if nField w = 0x6#4 then .ok (.shr (xField w) (yField w))
  else if nField w = 0x7#4 then .ok (.subn (xField w) (yField w))
  else if nField w = 0xE#4 then .ok (.shl (xField w) (yField w))
  else .error (.unknownOpcode w)

/-- Family 9 compares N (R74, R77). -/
def decodeFamily9 (w : Word) : Except DecodeError Instr :=
  if nField w = 0x0#4 then .ok (.sneReg (xField w) (yField w)) else .error (.unknownOpcode w)

/-- Family E compares NN (R74, R75). -/
def decodeFamilyE (w : Word) : Except DecodeError Instr :=
  if nnField w = 0x9E#8 then .ok (.skp (xField w))
  else if nnField w = 0xA1#8 then .ok (.sknp (xField w))
  else .error (.unknownOpcode w)

/-- Family F compares NN (R74, R75). -/
def decodeFamilyF (w : Word) : Except DecodeError Instr :=
  if nnField w = 0x07#8 then .ok (.ldFromDt (xField w))
  else if nnField w = 0x0A#8 then .ok (.ldKey (xField w))
  else if nnField w = 0x15#8 then .ok (.ldToDt (xField w))
  else if nnField w = 0x18#8 then .ok (.ldToSt (xField w))
  else if nnField w = 0x1E#8 then .ok (.addI (xField w))
  else if nnField w = 0x29#8 then .ok (.ldGlyph (xField w))
  else if nnField w = 0x33#8 then .ok (.ldDigits (xField w))
  else if nnField w = 0x55#8 then .ok (.storeRegs (xField w))
  else if nnField w = 0x65#8 then .ok (.loadRegs (xField w))
  else .error (.unknownOpcode w)

/-- Dispatch on OP, then on the family's sub-opcode (R74). The last arm is never reached: every OP has a row (R79). -/
def decodeWord (w : Word) : Except DecodeError Instr :=
  match opField w with
  | 0x0#4 => decodeFamily0 w
  | 0x1#4 => .ok (.jp (nnnField w))
  | 0x2#4 => .ok (.call (nnnField w))
  | 0x3#4 => .ok (.seImm (xField w) (nnField w))
  | 0x4#4 => .ok (.sneImm (xField w) (nnField w))
  | 0x5#4 => decodeFamily5 w
  | 0x6#4 => .ok (.ldImm (xField w) (nnField w))
  | 0x7#4 => .ok (.addImm (xField w) (nnField w))
  | 0x8#4 => decodeFamily8 w
  | 0x9#4 => decodeFamily9 w
  | 0xA#4 => .ok (.ldI (nnnField w))
  | 0xB#4 => .ok (.jpOffset (nnnField w) (xField w))
  | 0xC#4 => .ok (.rnd (xField w) (nnField w))
  | 0xD#4 => .ok (.drw (xField w) (yField w) (nField w))
  | 0xE#4 => decodeFamilyE w
  | 0xF#4 => decodeFamilyF w
  | _ => .error (.unknownOpcode w)

/-- Decode the first instruction of a list of bytes and give the bytes after it (R70, R71). -/
def decode : List Byte → Except DecodeError (Instr × List Byte)
  | b0 :: b1 :: rest =>
    match decodeWord (bigEndian b0 b1) with
    | .ok i => .ok (i, rest)
    | .error e => .error e
  | short => .error (.truncated short.length)

/-- One row of the table of R76: its pattern, match and mask. -/
structure OpcodeRow where
  pattern : String
  value : Word
  mask : Word
  deriving DecidableEq, Repr

/-- A word selects a row when (w AND mask) = match (R76). -/
def OpcodeRow.selects (r : OpcodeRow) (w : Word) : Bool := w &&& r.mask == r.value

/-- The table of R76, in its order. -/
def opcodeTable : List OpcodeRow :=
  [⟨"00E0", 0x00E0, 0xFFFF⟩, ⟨"00EE", 0x00EE, 0xFFFF⟩, ⟨"1NNN", 0x1000, 0xF000⟩, ⟨"2NNN", 0x2000, 0xF000⟩,
   ⟨"3XNN", 0x3000, 0xF000⟩, ⟨"4XNN", 0x4000, 0xF000⟩, ⟨"5XY0", 0x5000, 0xF00F⟩, ⟨"6XNN", 0x6000, 0xF000⟩,
   ⟨"7XNN", 0x7000, 0xF000⟩] ++
  [⟨"8XY0", 0x8000, 0xF00F⟩, ⟨"8XY1", 0x8001, 0xF00F⟩, ⟨"8XY2", 0x8002, 0xF00F⟩, ⟨"8XY3", 0x8003, 0xF00F⟩,
   ⟨"8XY4", 0x8004, 0xF00F⟩, ⟨"8XY5", 0x8005, 0xF00F⟩, ⟨"8XY6", 0x8006, 0xF00F⟩, ⟨"8XY7", 0x8007, 0xF00F⟩,
   ⟨"8XYE", 0x800E, 0xF00F⟩, ⟨"9XY0", 0x9000, 0xF00F⟩] ++
  [⟨"ANNN", 0xA000, 0xF000⟩, ⟨"BNNN", 0xB000, 0xF000⟩, ⟨"CXNN", 0xC000, 0xF000⟩, ⟨"DXYN", 0xD000, 0xF000⟩,
   ⟨"EX9E", 0xE09E, 0xF0FF⟩, ⟨"EXA1", 0xE0A1, 0xF0FF⟩, ⟨"FX07", 0xF007, 0xF0FF⟩, ⟨"FX0A", 0xF00A, 0xF0FF⟩,
   ⟨"FX15", 0xF015, 0xF0FF⟩, ⟨"FX18", 0xF018, 0xF0FF⟩, ⟨"FX1E", 0xF01E, 0xF0FF⟩, ⟨"FX29", 0xF029, 0xF0FF⟩,
   ⟨"FX33", 0xF033, 0xF0FF⟩, ⟨"FX55", 0xF055, 0xF0FF⟩, ⟨"FX65", 0xF065, 0xF0FF⟩]

/-! The formats of R72, as words. -/

/-- Format A: OP NNN. -/
def formatA (op : Nibble) (nnn : Addr12) : Word := op ++ nnn
/-- Format I: OP X NN. -/
def formatI (op x : Nibble) (nn : Byte) : Word := op ++ x ++ nn
/-- Formats R and D: OP X Y sub or OP X Y N. -/
def formatR (op x y n : Nibble) : Word := op ++ x ++ y ++ n

/-- The word of an instruction, from the table of R76. Format S is format I with the sub-opcode as its low byte. -/
def encode : Instr → Word
  | .cls => 0x00E0
  | .ret => 0x00EE
  | .jp nnn => formatA 0x1 nnn
  | .call nnn => formatA 0x2 nnn
  | .seImm x nn => formatI 0x3 x nn
  | .sneImm x nn => formatI 0x4 x nn
  | .seReg x y => formatR 0x5 x y 0x0
  | .ldImm x nn => formatI 0x6 x nn
  | .addImm x nn => formatI 0x7 x nn
  | .ldReg x y => formatR 0x8 x y 0x0
  | .orReg x y => formatR 0x8 x y 0x1
  | .andReg x y => formatR 0x8 x y 0x2
  | .xorReg x y => formatR 0x8 x y 0x3
  | .addReg x y => formatR 0x8 x y 0x4
  | .subReg x y => formatR 0x8 x y 0x5
  | .shr x y => formatR 0x8 x y 0x6
  | .subn x y => formatR 0x8 x y 0x7
  | .shl x y => formatR 0x8 x y 0xE
  | .sneReg x y => formatR 0x9 x y 0x0
  | .ldI nnn => formatA 0xA nnn
  | .jpOffset nnn _ => formatA 0xB nnn
  | .rnd x nn => formatI 0xC x nn
  | .drw x y n => formatR 0xD x y n
  | .skp x => formatI 0xE x 0x9E
  | .sknp x => formatI 0xE x 0xA1
  | .ldFromDt x => formatI 0xF x 0x07
  | .ldKey x => formatI 0xF x 0x0A
  | .ldToDt x => formatI 0xF x 0x15
  | .ldToSt x => formatI 0xF x 0x18
  | .addI x => formatI 0xF x 0x1E
  | .ldGlyph x => formatI 0xF x 0x29
  | .ldDigits x => formatI 0xF x 0x33
  | .storeRegs x => formatI 0xF x 0x55
  | .loadRegs x => formatI 0xF x 0x65

/-- The high byte of a word, stored first (R70). -/
def highByte (w : Word) : Byte := w.extractLsb' 8 8
/-- The low byte of a word, stored second (R70). -/
def lowByte (w : Word) : Byte := w.extractLsb' 0 8

/-- The two bytes of an instruction as they lie in memory (R57, R70). -/
def encodeBytes (i : Instr) : List Byte := [highByte (encode i), lowByte (encode i)]

/-- The first word of an instruction given as the opcode table numbers its bits: bits at and above `nbits` are 0. -/
def tableWord (nbits w : Nat) : Word := BitVec.ofNat 16 (w % 2 ^ nbits)

/-- What the decoder reads from the instruction whose bits are `w`, laid out as the hardware stores it. -/
def decodeTableWord (nbits w : Nat) : Option Instr :=
  match decode [highByte (tableWord nbits w), lowByte (tableWord nbits w)] with
  | .ok (i, _) => some i
  | .error _ => none

end Sys2Proof
end

