-- ==== Sys2Proof/Config.lean ====
section
/-! DEFINITION. What is fixed for one machine: the parameters of 00_scope.md R8 and the options of R9; and the one free value. -/

namespace Sys2Proof

/-- The two meanings of BNNN (R9, R107). -/
inductive JumpMode where
  /-- `pc <- NNN + V[0]`. -/
  | legacy
  /-- `pc <- NNN + V[X]`. -/
  | indexed
  deriving DecidableEq, Repr

/-- The parameters of R8 and the options of R9. CORE samples them at reset and holds them constant (R9, R38), so State
carries them unchanged; every statement over all states covers every configuration. -/
structure Config where
  /-- MEM_SIZE: the number of bytes of `mem`. -/
  memSize : Nat
  /-- PROGRAM_BASE: where the program lies and where `pc` starts. -/
  programBase : Nat
  /-- FONT_BASE: where the font lies. -/
  fontBase : Nat
  /-- DISPLAY_BASE: where the framebuffer lies. -/
  displayBase : Nat
  /-- FONT: the glyph bytes, sixteen glyphs of five (R7, R44). -/
  font : Vector Byte 80
  /-- TICKS_PER_SECOND: the unit of timestamps. -/
  ticksPerSecond : Nat
  /-- T_RESET: the timestamp sampled at reset. -/
  tReset : Nat
  /-- FX1E_CLEARS_VF: whether FX1E writes 0 to VF when the sum stays in range (R141). -/
  fx1eClearsVf : Bool
  /-- `instructions_per_second`, the instruction gate's frequency (R222). -/
  instructionsPerSecond : Nat
  /-- `timer_frequency`, the timer gate's frequency (R222). -/
  timerFrequency : Nat
  /-- `frame_rate`, the display gate's frequency (R222, R225). -/
  frameRate : Nat
  /-- `decouple_display`: only the display gate presents (R166, R225). -/
  decoupleDisplay : Bool
  /-- `shift_copies_source_register`: 8XY6 and 8XYE shift V[Y] (R129, R131). -/
  shiftCopiesSourceRegister : Bool
  /-- `jump_with_offset_mode` (R107). -/
  jumpWithOffsetMode : JumpMode
  /-- `load_store_advances_index`: FX55 and FX65 add X + 1 to `I` (R144, R145). -/
  loadStoreAdvancesIndex : Bool
  deriving DecidableEq, Repr

/-- FB_BYTES: the size of the display region (R7). -/
def fbBytes : Nat := 256

/-- FONT_BYTES: the size of the font (R7). -/
def fontBytes : Nat := 80

/-- The constraints of R8 and the positive frequencies of R9; a configuration outside them is refused (R9, D14). -/
def Config.wf (c : Config) : Bool :=
  decide (fbBytes + fontBytes + 2 ≤ c.memSize) && decide (c.memSize ≤ 65536) &&
  decide (c.programBase + 2 ≤ c.memSize) && decide (c.fontBase + fontBytes ≤ c.memSize) &&
  decide (c.displayBase + fbBytes ≤ c.memSize) && decide (0 < c.ticksPerSecond) &&
  decide (0 < c.instructionsPerSecond) && decide (0 < c.timerFrequency) && decide (0 < c.frameRate)

/-- The table of R44: row r of glyph d at 5 * d + r. PRESUMED (R44: from general knowledge), log 3. -/
def standardFont : Vector Byte 80 :=
  #v[0xF0, 0x90, 0x90, 0x90, 0xF0,  0x20, 0x60, 0x20, 0x20, 0x70,
     0xF0, 0x10, 0xF0, 0x80, 0xF0,  0xF0, 0x10, 0xF0, 0x10, 0xF0,
     0x90, 0x90, 0xF0, 0x10, 0x10,  0xF0, 0x80, 0xF0, 0x10, 0xF0,
     0xF0, 0x80, 0xF0, 0x90, 0xF0,  0xF0, 0x10, 0x20, 0x40, 0x40,
     0xF0, 0x90, 0xF0, 0x90, 0xF0,  0xF0, 0x90, 0xF0, 0x10, 0xF0,
     0xF0, 0x90, 0xF0, 0x90, 0x90,  0xE0, 0x90, 0xE0, 0x90, 0xE0,
     0xF0, 0x80, 0x80, 0x80, 0xF0,  0xE0, 0x90, 0x90, 0x90, 0xE0,
     0xF0, 0x80, 0xF0, 0x80, 0xF0,  0xF0, 0x80, 0xF0, 0x80, 0x80]

/-- The configuration of State.reset: the defaults of R8, the option values 95_test_vectors.md calls "default", and the
rates of its T-SCHED table with `timer_frequency` conventionally 60. DESIGN CHOICE where the spec gives no default (logs 1, 2, 6, 15). -/
def Config.standard : Config where
  memSize := 4096
  programBase := 0x200
  fontBase := 0x050
  displayBase := 0xF00
  font := standardFont
  ticksPerSecond := 1000
  tReset := 0
  fx1eClearsVf := false
  instructionsPerSecond := 500
  timerFrequency := 60
  frameRate := 30
  decoupleDisplay := false
  shiftCopiesSourceRegister := false
  jumpWithOffsetMode := .legacy
  loadStoreAdvancesIndex := false

/-- The free value of CXNN (R132, D24, U14): the byte the host drives on port `rnd` at the n-th draw, when the state does not
already hold it. Nothing constrains it. -/
opaque Config.freeRnd : Nat → Byte

end Sys2Proof
end

