-- ==== Sys2Proof/Machine/State.lean ====
section
/-! DEFINITION. The state of CORE (10_state.md R20), the host's inputs and outputs (60_exceptions.md R230), and the state after reset (R42). -/

namespace Sys2Proof.Machine

/-- The await-key state machine (R34). -/
inductive AwaitKey where
  | idle
  | awaitingPress
  /-- A key-down event for key `k` arrived while awaiting; FX0A has not consumed it yet. -/
  | captured (k : Nibble)
  deriving DecidableEq, Repr

/-- A key event; the id has four bits, so an id above 15 cannot be expressed (R212, U10). -/
inductive KeyEvent where
  /-- KeyDown(k), R210. -/
  | down (k : Nibble)
  /-- KeyUp(k), R211. -/
  | up (k : Nibble)
  deriving DecidableEq, Repr

/-- The atomic actions of the time-free reading (R229). -/
inductive Action where
  /-- A key event (R210, R211). -/
  | key (e : KeyEvent)
  /-- One executor invocation (R71). -/
  | execute
  /-- The timer tick (R215). -/
  | tick
  /-- The display gate's action, which exists only when the display is decoupled (R225, R226). -/
  | refresh
  /-- The end of the loop (R235). -/
  | stop
  deriving DecidableEq, Repr

/-- What the host makes the machine do in one step. -/
inductive Turn where
  /-- One iteration of the loop: the pending events, the sample of `now`, the level of `quit` (R227). -/
  | iteration (events : List KeyEvent) (now : Nat) (quit : Bool)
  /-- One atomic action by itself (R229, R238). -/
  | act (a : Action)
  deriving DecidableEq, Repr

/-- The four diagnostics (R202). -/
inductive DiagKind where
  | unknownOpcode
  | stackOverflow
  | stackUnderflow
  | keyIndexOutOfRange
  deriving DecidableEq, Repr

/-- A diagnostic event: its kind, the instruction word and the address it was fetched from (R201). -/
structure Diag where
  kind : DiagKind
  word : Word
  fetchedFrom : Word
  deriving DecidableEq, Repr

/-- An output event (R40): a diagnostic (R201), or a present event with its snapshot of the framebuffer (R226). -/
inductive Output where
  | diag (d : Diag)
  | present (frame : List Byte)
  deriving DecidableEq, Repr

/-- The "last fired" timestamps of the three gates (R35): `lf_insn`, `lf_timer`, `lf_disp`. -/
structure Gates where
  insn : Nat
  timer : Nat
  disp : Nat
  deriving DecidableEq, Repr

/-- The host's side of the ports, as plain data: inputs and outputs of the step (R40), not state of CORE. -/
structure Io where
  /-- What the host does next, oldest first (log 9). -/
  turns : List Turn
  /-- Bytes already driven on port `rnd` for the coming draws, oldest first (R132, log 8). -/
  rndIn : List Byte
  /-- The model's own counter of draws, the argument of the free value (log 8). -/
  draws : Nat
  /-- The latest sample of `now` (R220, log 12). -/
  now : Nat
  /-- The output events so far, oldest first (R201, R226, log 10). -/
  out : List Output
  /-- The port `stopped` (R235). -/
  stopped : Bool
  deriving DecidableEq, Repr

/-- `mem` as the bytes that differ from their reset contents: addresses strictly rising (R36, log 5). -/
abbrev Memory := List Host.Cell

/-- The state of CORE (R20), with its configuration latched at reset (R9) and the host's ports. -/
structure State where
  /-- The configuration and parameters, constant from reset on (R8, R9, R38). -/
  cfg : Config
  /-- The byte memory (R36). -/
  mem : Memory
  /-- V[0] to V[15] (R21); V[15] is the flag VF (R22). -/
  v : Vector Byte 16
  /-- The index register (R23). -/
  i : Word
  /-- The program counter (R24, R25). -/
  pc : Word
  /-- The delay timer (R26). -/
  dt : Byte
  /-- The sound timer (R27). -/
  st : Byte
  /-- The call stack's entries (R29, R30). -/
  stack : Vector Word 16
  /-- The call stack's depth, 0 to 16 (R29). -/
  sp : Fin 17
  /-- `keys[k]`: key k is down (R33). -/
  keys : Vector Bool 16
  /-- The await-key state (R34). -/
  aks : AwaitKey
  /-- The gates' timestamps (R35). -/
  gates : Gates
  /-- The host's inputs and outputs (R40). -/
  io : Io
  deriving DecidableEq, Repr

/-- Why a run has no meaning from here on. -/
inductive Fault where
  /-- The model fault of R54 and R203, raised by a fetch and by the data accesses of DXYN, FX33, FX55 and FX65 at an address
  of MEM_SIZE or more. Safe: the source gives such an access no result, and the model gives it none. -/
  | addrOutOfRange (addr : Nat)
  deriving DecidableEq, Repr

/-- Why the model does not admit something. -/
inductive Refusal where
  /-- An arm of `exec` without a meaning. No arm raises it: every instruction has one. Safe. -/
  | notModelled (mnemonic : String)
  /-- Raised by an iteration whose sample of `now` is below an earlier one, which the host never supplies (R220, R232, U8). Safe. -/
  | clockRanBackwards (earlier sample : Nat)
  deriving DecidableEq, Repr

/-- The outcome of a step of this machine. -/
abbrev Result := Host.Outcome State Fault Refusal

/-- The state after reset under a configuration, with no program loaded (R42, R260): `pc` at PROGRAM_BASE, `aks` Idle, memory
at its reset contents, the timestamps at T_RESET, and everything else zero, empty or false (the spec's D7, log 4). -/
def State.powerOn (cfg : Config) : State where
  cfg := cfg
  mem := []
  v := Vector.replicate 16 0
  i := 0
  pc := BitVec.ofNat 16 cfg.programBase
  dt := 0
  st := 0
  stack := Vector.replicate 16 0
  sp := 0
  keys := Vector.replicate 16 false
  aks := .idle
  gates := ⟨cfg.tReset, cfg.tReset, cfg.tReset⟩
  io := { turns := [], rndIn := [], draws := 0, now := cfg.tReset, out := [], stopped := false }

/-- The state after reset with the standard configuration (R42, logs 1 to 6). -/
def State.reset : State := State.powerOn Config.standard

end Sys2Proof.Machine
end

