-- ==== Sys2Proof/Machine/Ops.lean ====
section
/-! DEFINITION. The named operations over memory (20_memory.md R52 to R55), registers, the call stack (10_state.md R31, R32), the
keypad, and the two output channels (60_exceptions.md R201, R226). CORE takes no exception and returns from none (R200, R208, R209):
`diagnose` is what stands in the place of an exception's entry, and it saves nothing and redirects nothing. -/

namespace Sys2Proof.Machine

/-! ### Memory -/

/-- What an address holds at reset, and what an unlisted address reads as: the font's byte, or 0x00 (R42, R44, log 5). -/
def resetByte (cfg : Config) (a : Nat) : Byte :=
  if cfg.fontBase ≤ a then cfg.font.toList.getD (a - cfg.fontBase) 0 else 0

/-- The byte at an address (R52). -/
def Memory.get (cfg : Config) : Memory → Nat → Byte
  | [], a => resetByte cfg a
  | (b, v) :: m, a => if a = b then v else Memory.get cfg m a

/-- Memory with one byte written (R53), in canonical form: writing the reset byte takes the entry out. -/
def Memory.set (cfg : Config) : Memory → Nat → Byte → Memory
  | [], a, v => if v = resetByte cfg a then [] else [(a, v)]
  | (b, w) :: m, a, v =>
    if a < b then (if v = resetByte cfg a then (b, w) :: m else (a, v) :: (b, w) :: m)
    else if a = b then (if v = resetByte cfg a then m else (a, v) :: m)
    else (b, w) :: Memory.set cfg m a v

/-- The canonical form: addresses strictly rising and below MEM_SIZE, no entry equal to its reset byte. -/
def Memory.wf (cfg : Config) : Memory → Bool
  | [] => true
  | (a, v) :: m =>
    decide (a < cfg.memSize) && v != resetByte cfg a && m.all (fun c => decide (a < c.1)) && Memory.wf cfg m

/-- `mem[a]` as the state holds it (R36). -/
def State.byteAt (s : State) (a : Nat) : Byte := Memory.get s.cfg s.mem a

/-- MemRead(addr, 1) (R52): the model fault of R54 at MEM_SIZE or more. The address is a natural number (R55). -/
def memRead (a : Nat) (s : State) : Except Fault Byte :=
  if a < s.cfg.memSize then .ok (s.byteAt a) else .error (.addrOutOfRange a)

/-- MemWrite(addr, 1, v) (R53): the model fault of R54 at MEM_SIZE or more. -/
def memWrite (a : Nat) (v : Byte) (s : State) : Except Fault State :=
  if a < s.cfg.memSize then .ok { s with mem := Memory.set s.cfg s.mem a v } else .error (.addrOutOfRange a)

/-- "for k from start, n times, ascending" (R12: statements run in the order written): stops at the first fault. -/
def forUp : (n start : Nat) → (Nat → State → Except Fault State) → State → Except Fault State
  | 0, _, _, s => .ok s
  | n + 1, k, body, s =>
    match body k s with
    | .ok t => forUp n (k + 1) body t
    | .error f => .error f

/-- The end of an instruction whose memory accesses may have faulted (R54). -/
def finish (r : Except Fault State) (andThen : State → State) : Result :=
  match r with
  | .ok s => .next (andThen s)
  | .error f => .fault f

/-- The fetch of R71: two byte reads at `pc` and `pc + 1`, big-endian (R57), at any alignment (R58). -/
def fetch (s : State) : Except Fault Word :=
  match memRead s.pc.toNat s with
  | .error f => .error f
  | .ok b0 =>
    match memRead (s.pc.toNat + 1) s with
    | .error f => .error f
    | .ok b1 => .ok (bigEndian b0 b1)

/-! ### Registers -/

/-- V[x] (R21). -/
def State.reg (s : State) (x : Nibble) : Byte := s.v[x.toNat]'x.isLt

/-- V[x] <- b (R21). -/
def State.setReg (s : State) (x : Nibble) (b : Byte) : State := { s with v := s.v.set x.toNat b x.isLt }

/-- The selector of VF (R22). -/
def vf : Nibble := 0xF

/-- I <- w (R23). -/
def State.setIndex (s : State) (w : Word) : State := { s with i := w }

/-- pc <- target (R24). -/
def State.setPc (s : State) (target : Word) : State := { s with pc := target }

/-- DT <- b (R26). -/
def State.setDt (s : State) (b : Byte) : State := { s with dt := b }

/-- ST <- b (R27). -/
def State.setSt (s : State) (b : Byte) : State := { s with st := b }

/-- pc <- (pc + 2) mod 65536, the advance of every fetch (R24, R71). -/
def State.advance (s : State) : State := s.setPc (s.pc + 2)

/-- A skip: 2 more on the advanced pc when the condition holds (R108). -/
def State.skipIf (s : State) (cond : Bool) : State := if cond then s.setPc (s.pc + 2) else s

/-- A rewind: pc <- (pc - 2) mod 65536 on the advanced pc (R172). -/
def State.rewind (s : State) : State := s.setPc (s.pc - 2)

/-! ### The call stack -/

/-- push(v) (R31): none when the stack is full. -/
def push (w : Word) (s : State) : Option State :=
  if h : s.sp.val < 16 then
    some { s with stack := s.stack.set s.sp.val w h, sp := ⟨s.sp.val + 1, Nat.succ_lt_succ h⟩ }
  else none

/-- pop() (R32): none when the stack is empty. -/
def pop (s : State) : Option (Word × State) :=
  if 0 < s.sp.val then
    some (s.stack[s.sp.val - 1]'(by have := s.sp.isLt; omega), { s with sp := ⟨s.sp.val - 1, by have := s.sp.isLt; omega⟩ })
  else none

/-! ### Keypad, await-key state, random byte -/

/-- keys[k] (R33). -/
def State.keyDown (s : State) (k : Nibble) : Bool := s.keys[k.toNat]'k.isLt

/-- keys[k] <- b (R33). -/
def State.setKey (s : State) (k : Nibble) (b : Bool) : State := { s with keys := s.keys.set k.toNat b k.isLt }

/-- aks <- a (R34). -/
def State.setAks (s : State) (a : AwaitKey) : State := { s with aks := a }

/-- The byte the next draw takes from port `rnd` (R132): what the host already drives there, else the free value. -/
def State.rndByte (s : State) : Byte :=
  match s.io.rndIn with
  | b :: _ => b
  | [] => Config.freeRnd s.io.draws

/-- The state once that byte is drawn: a fresh byte for the next draw (R132, D24). -/
def State.rndTaken (s : State) : State := { s with io := { s.io with rndIn := s.io.rndIn.tail, draws := s.io.draws + 1 } }

/-! ### Output events -/

/-- Append one output event (R40, R201, R226). It changes nothing else. -/
def State.emit (s : State) (o : Output) : State := { s with io := { s.io with out := s.io.out ++ [o] } }

/-- diag Kind(w, at) (R201): one event, no state of CORE changes, nothing is saved and control goes nowhere special (R208). -/
def diagnose (kind : DiagKind) (w fetchedFrom : Word) (s : State) : State := s.emit (.diag ⟨kind, w, fetchedFrom⟩)

/-- The numeric codes of R202, as port `diag_code` carries them (R230). -/
def DiagKind.code : DiagKind → BitVec 3
  | .unknownOpcode => 1
  | .stackOverflow => 2
  | .stackUnderflow => 3
  | .keyIndexOutOfRange => 4

/-- The snapshot of the 256 display bytes (R226). -/
def State.framebuffer (s : State) : List Byte := (List.range fbBytes).map (fun j => s.byteAt (s.cfg.displayBase + j))

/-- The framebuffer's read port `fb_addr`, `fb_data` (R230, R234). -/
def State.fbRead (s : State) (fbAddr : Byte) : Byte := s.byteAt (s.cfg.displayBase + fbAddr.toNat)

/-- pixel(x, y) of R37: the bit of column `x` and row `y`, most significant bit leftmost. -/
def State.pixel (s : State) (x y : Nat) : Bool := (s.byteAt (s.cfg.displayBase + y * 8 + x / 8)).getLsbD (7 - x % 8)

/-- present() (R226). -/
def present (s : State) : State := s.emit (.present s.framebuffer)

/-- The present event that ends 00E0 and DXYN when the display is not decoupled (R166). -/
def presentUnlessDecoupled (s : State) : State := if s.cfg.decoupleDisplay then s else present s

/-- The whole effect of a word that matches no row of R76 (R78): pc advanced, one diagnostic. -/
def unknownOpcode (w : Word) (s : State) : State := diagnose .unknownOpcode w s.pc s.advance

end Sys2Proof.Machine
end

