-- ==== Sys2Proof/Machine/Agents.lean ====
section
/-! DEFINITION. The agents other than the executor, each one atomic action (60_exceptions.md R210, R211, R215, R225, R235). -/

namespace Sys2Proof.Machine

/-- KeyDown(k) (R210): the key is down; captured only while awaiting, also on a repeat (log 23). -/
def keyPressed (k : Nibble) (s : State) : State :=
  match s.aks with
  | .awaitingPress => (s.setKey k true).setAks (.captured k)
  | .idle | .captured _ => s.setKey k true

/-- KeyUp(k) (R211): the key is up; `aks` is unchanged. -/
def keyReleased (k : Nibble) (s : State) : State := s.setKey k false

/-- One key event. -/
def keyEvent (e : KeyEvent) (s : State) : State :=
  match e with
  | .down k => keyPressed k s
  | .up k => keyReleased k s

/-- Drain the pending events in the order they occurred (R212, R227). -/
def drainEvents : List KeyEvent → State → State
  | [], s => s
  | e :: rest, s => drainEvents rest (keyEvent e s)

/-- One timer down by one, never below 0 (R28, R215). -/
def countDown (b : Byte) : Byte := if b.toNat > 0 then b - 1 else b

/-- Tick() (R215): both timers, each by its own test; nothing else. -/
def tick (s : State) : State := (s.setDt (countDown s.dt)).setSt (countDown s.st)

/-- The display gate's action: present(), and none when the display is not decoupled (R225, R226). -/
def refresh (s : State) : State := if s.cfg.decoupleDisplay then present s else s

/-- The end of the loop (R235): `stopped` rises. -/
def stopLoop (s : State) : State := { s with io := { s.io with stopped := true } }

end Sys2Proof.Machine
end

