-- ==== Sys2Proof/Machine/Flags.lean ====
section
/-! DEFINITION. Every value an instruction writes to VF as a side effect (10_state.md R22), and the write order of 41_alu.md R120. -/

namespace Sys2Proof.Machine

/-- A flag as VF holds it: 1 or 0. -/
def flagByte (b : Bool) : Byte := if b then 1 else 0

/-- 8XY4: the sum exceeds 255 (R127). -/
def carryOut (a b : Byte) : Bool := decide (a.toNat + b.toNat > 255)

/-- 8XY5 and 8XY7: a - b needs no borrow (R128, R130). -/
def noBorrow (a b : Byte) : Bool := decide (a.toNat ≥ b.toNat)

/-- 8XY6: the bit shifted out on the right (R129). -/
def lowBit (t : Byte) : Bool := t.getLsbD 0

/-- 8XYE: the bit shifted out on the left (R131). -/
def highBit (t : Byte) : Bool := t.getLsbD 7

/-- FX1E: the sum, before its reduction to 16 bits, reaches the size of the memory (R141). -/
def reachesEnd (cfg : Config) (sum : Nat) : Bool := decide (sum ≥ cfg.memSize)

/-- VF <- flag (R22). -/
def State.setFlag (s : State) (b : Bool) : State := s.setReg vf (flagByte b)

/-- The flag to V[15], then the result to V[X]; at X = 0xF the result remains (R120, log 13). -/
def State.flagThenResult (s : State) (x : Nibble) (flag : Bool) (result : Byte) : State :=
  (s.setFlag flag).setReg x result

/-- FX1E's write of VF: 1 when the sum reaches the end, else 0 only if FX1E_CLEARS_VF (R141, log 15). -/
def State.rangeFlag (s : State) (sum : Nat) : State :=
  if reachesEnd s.cfg sum then s.setFlag true
  else if s.cfg.fx1eClearsVf then s.setFlag false
  else s

end Sys2Proof.Machine
end

