-- ==== Sys2Proof/Machine/Operands.lean ====
section
/-! DEFINITION. The operand forms the spec gives: immediates (30_encoding.md R73), the two quirk-selected registers (R107, R129, R131),
the one addressing mode (42_index_memory.md R146), and the values FX29, FX33, DXYN and the key skips take from a register. -/

namespace Sys2Proof.Machine

/-- NNN zero-extended to 16 bits (R73). -/
def addrImm (nnn : Addr12) : Word := nnn.setWidth 16

/-- A key id as a register value (R172). -/
def keyByte (k : Nibble) : Byte := k.setWidth 8

/-- A row of a register loop as a selector: V[i] for i in 0 to 15 (R144, R145). -/
def regIndex (i : Nat) : Nibble := BitVec.ofNat 4 i

/-- The operand of 8XY6 and 8XYE: V[Y] under the shift quirk, else V[X] (R129, R131). -/
def State.shiftOperand (s : State) (x y : Nibble) : Byte :=
  if s.cfg.shiftCopiesSourceRegister then s.reg y else s.reg x

/-- The offset register of BNNN: V[0] in legacy mode, V[X] in indexed mode (R107). -/
def State.jumpOffset (s : State) (x : Nibble) : Byte :=
  match s.cfg.jumpWithOffsetMode with
  | .legacy => s.reg 0
  | .indexed => s.reg x

/-- The address I + k, a natural number that is not reduced (R55, R146). -/
def State.indexed (s : State) (k : Nat) : Nat := s.i.toNat + k

/-- The address of glyph V[X], the whole eight bits multiplied (R142). -/
def State.glyphAddr (s : State) (x : Nibble) : Word := BitVec.ofNat 16 (s.cfg.fontBase + 5 * (s.reg x).toNat)

/-- I <- (I + X + 1) mod 65536 under the index quirk, else nothing (R144, R145). -/
def State.advanceIndex (s : State) (x : Nibble) : State :=
  if s.cfg.loadStoreAdvancesIndex then s.setIndex (BitVec.ofNat 16 (s.i.toNat + x.toNat + 1)) else s

/-- The hundreds digit of FX33 (R143). -/
def hundreds (b : Byte) : Byte := BitVec.ofNat 8 (b.toNat / 100)
/-- The tens digit of FX33 (R143). -/
def tens (b : Byte) : Byte := BitVec.ofNat 8 (b.toNat / 10 % 10)
/-- The ones digit of FX33 (R143). -/
def ones (b : Byte) : Byte := BitVec.ofNat 8 (b.toNat % 10)

/-- The origin column of DXYN: V[X] mod 64 (R163). -/
def State.originColumn (s : State) (x : Nibble) : Nat := (s.reg x).toNat % 64
/-- The origin row of DXYN: V[Y] mod 32 (R163). -/
def State.originRow (s : State) (y : Nibble) : Nat := (s.reg y).toNat % 32

/-- The key that EX9E and EXA1 name: none when V[X] is above 15, which is not masked (R170, R171). -/
def State.namedKey (s : State) (x : Nibble) : Option Nibble :=
  if (s.reg x).toNat > 15 then none else some (BitVec.ofNat 4 (s.reg x).toNat)

end Sys2Proof.Machine
end

