-- ==== Sys2Proof/Machine/Alu.lean ====
section
/-! DEFINITION. Register load, arithmetic, logic, shift and random instructions (41_alu.md). The five that write the flag read
their operands from `s`, the state before the instruction (R120). -/

namespace Sys2Proof.Machine

/-- 6XNN (R121). -/
def execLdImm (x : Nibble) (nn : Byte) (s : State) : Result := .next (s.advance.setReg x nn)

/-- 7XNN (R122): no flag. -/
def execAddImm (x : Nibble) (nn : Byte) (s : State) : Result := .next (s.advance.setReg x (s.reg x + nn))

/-- 8XY0 (R123). -/
def execLdReg (x y : Nibble) (s : State) : Result := .next (s.advance.setReg x (s.reg y))

/-- 8XY1 (R124). -/
def execOrReg (x y : Nibble) (s : State) : Result := .next (s.advance.setReg x (s.reg x ||| s.reg y))

/-- 8XY2 (R125). -/
def execAndReg (x y : Nibble) (s : State) : Result := .next (s.advance.setReg x (s.reg x &&& s.reg y))

/-- 8XY3 (R126). -/
def execXorReg (x y : Nibble) (s : State) : Result := .next (s.advance.setReg x (s.reg x ^^^ s.reg y))

/-- 8XY4 (R127). -/
def execAddReg (x y : Nibble) (s : State) : Result :=
  .next (s.advance.flagThenResult x (carryOut (s.reg x) (s.reg y)) (s.reg x + s.reg y))

/-- 8XY5 (R128). -/
def execSubReg (x y : Nibble) (s : State) : Result :=
  .next (s.advance.flagThenResult x (noBorrow (s.reg x) (s.reg y)) (s.reg x - s.reg y))

/-- 8XY6 (R129). -/
def execShr (x y : Nibble) (s : State) : Result :=
  .next (s.advance.flagThenResult x (lowBit (s.shiftOperand x y)) (s.shiftOperand x y >>> 1))

/-- 8XY7 (R130). -/
def execSubn (x y : Nibble) (s : State) : Result :=
  .next (s.advance.flagThenResult x (noBorrow (s.reg y) (s.reg x)) (s.reg y - s.reg x))

/-- 8XYE (R131). -/
def execShl (x y : Nibble) (s : State) : Result :=
  .next (s.advance.flagThenResult x (highBit (s.shiftOperand x y)) (s.shiftOperand x y <<< 1))

/-- CXNN (R132): one byte is drawn, whatever NN is. -/
def execRnd (x : Nibble) (nn : Byte) (s : State) : Result := .next (s.advance.rndTaken.setReg x (s.rndByte &&& nn))

end Sys2Proof.Machine
end

