-- ==== Sys2Proof/Machine/Display.lean ====
section
/-! DEFINITION. The display instructions (43_display.md): clear, and the XOR sprite draw by the bit loop of R161. -/

namespace Sys2Proof.Machine

/-- 00E0 (R160): every display byte to 0, ascending; then a present event unless decoupled (R166). -/
def execCls (s : State) : Result :=
  finish (forUp fbBytes s.cfg.displayBase (fun a t => memWrite a 0 t) s.advance) presentUnlessDecoupled

/-- The display byte of column `x` and row `y` (R37, R161). -/
def pixelAddr (cfg : Config) (x y : Nat) : Nat := cfg.displayBase + y * 8 + x / 8

/-- Toggle one pixel; VF <- 1 if it was on (R161, R162). -/
def togglePixel (x y : Nat) (t : State) : Except Fault State :=
  match memRead (pixelAddr t.cfg x y) t with
  | .error f => .error f
  | .ok old =>
    memWrite (pixelAddr t.cfg x y) (old ^^^ ((1#8) <<< (7 - x % 8)))
      (if old.getLsbD (7 - x % 8) then t.setFlag true else t)

/-- One bit of a sprite row: a lit bit inside the display toggles its pixel, anything else does nothing (R161, R163). -/
def drawBit (ox oy r : Nat) (b : Byte) (c : Nat) (t : State) : Except Fault State :=
  if b.getLsbD (7 - c) ∧ ox + c < 64 ∧ oy + r < 32 then togglePixel (ox + c) (oy + r) t else .ok t

/-- One sprite row: its byte is read when the loop reaches it, also when the row is clipped (R164, log 22). -/
def drawRow (base ox oy r : Nat) (t : State) : Except Fault State :=
  match memRead (base + r) t with
  | .error f => .error f
  | .ok b => forUp 8 0 (drawBit ox oy r b) t

/-- DXYN (R161): the origin is taken before VF is reset; N rows; then a present event unless decoupled (R166). -/
def execDrw (x y n : Nibble) (s : State) : Result :=
  finish (forUp n.toNat 0 (drawRow (s.indexed 0) (s.originColumn x) (s.originRow y)) (s.advance.setFlag false))
    presentUnlessDecoupled

end Sys2Proof.Machine
end

