-- ==== Sys2Proof/Machine/Flow.lean ====
section
/-! DEFINITION. Control transfer and skip instructions (40_flow.md). A meaning takes the state at the fetch address: its first
act is the advance of `pc` (R71), so `s.pc` is the spec's `at`. -/

namespace Sys2Proof.Machine

/-- 00EE (R100): `pc` takes the popped address, 0x0000 with a diagnostic when the stack is empty (log 14). -/
def execRet (s : State) : Result :=
  match pop s.advance with
  | some (target, t) => .next (t.setPc target)
  | none => .next ((diagnose .stackUnderflow (encode .ret) s.pc s.advance).setPc 0)

/-- 1NNN (R101). -/
def execJp (nnn : Addr12) (s : State) : Result := .next (s.advance.setPc (addrImm nnn))

/-- 2NNN (R102): push the advanced `pc`; on a full stack only a diagnostic; the jump is taken either way (log 14). -/
def execCall (nnn : Addr12) (s : State) : Result :=
  match push s.advance.pc s.advance with
  | some t => .next (t.setPc (addrImm nnn))
  | none => .next ((diagnose .stackOverflow (encode (.call nnn)) s.pc s.advance).setPc (addrImm nnn))

/-- 3XNN (R103). -/
def execSeImm (x : Nibble) (nn : Byte) (s : State) : Result := .next (s.advance.skipIf (s.reg x == nn))

/-- 4XNN (R104). -/
def execSneImm (x : Nibble) (nn : Byte) (s : State) : Result := .next (s.advance.skipIf (s.reg x != nn))

/-- 5XY0 (R105). -/
def execSeReg (x y : Nibble) (s : State) : Result := .next (s.advance.skipIf (s.reg x == s.reg y))

/-- 9XY0 (R106). -/
def execSneReg (x y : Nibble) (s : State) : Result := .next (s.advance.skipIf (s.reg x != s.reg y))

/-- BNNN (R107): NNN plus V[0] or V[X], by the configured mode. -/
def execJpOffset (nnn : Addr12) (x : Nibble) (s : State) : Result :=
  .next (s.advance.setPc (BitVec.ofNat 16 (nnn.toNat + (s.jumpOffset x).toNat)))

end Sys2Proof.Machine
end

