-- ==== Sys2Proof/Machine/Index.lean ====
section
/-! DEFINITION. Index register and memory instructions (42_index_memory.md). -/

namespace Sys2Proof.Machine

/-- ANNN (R140). -/
def execLdI (nnn : Addr12) (s : State) : Result := .next (s.advance.setIndex (addrImm nnn))

/-- FX1E (R141): the sum is reduced only when written to `I`; VF by the unreduced sum. -/
def execAddI (x : Nibble) (s : State) : Result :=
  .next ((s.advance.setIndex (BitVec.ofNat 16 (s.i.toNat + (s.reg x).toNat))).rangeFlag (s.i.toNat + (s.reg x).toNat))

/-- FX29 (R142). -/
def execLdGlyph (x : Nibble) (s : State) : Result := .next (s.advance.setIndex (s.glyphAddr x))

/-- The digit that FX33 stores at I + k (R143). -/
def digitAt (b : Byte) (k : Nat) : Byte := if k = 0 then hundreds b else if k = 1 then tens b else ones b

/-- FX33 (R143): hundreds, tens, ones to I, I + 1, I + 2, ascending. -/
def execLdDigits (x : Nibble) (s : State) : Result :=
  finish (forUp 3 0 (fun k t => memWrite (s.indexed k) (digitAt (s.reg x) k) t) s.advance) id

/-- FX55 (R144): V[0] to V[X] to I and up, ascending; then the index quirk. -/
def execStoreRegs (x : Nibble) (s : State) : Result :=
  finish (forUp (x.toNat + 1) 0 (fun k t => memWrite (s.indexed k) (t.reg (regIndex k)) t) s.advance)
    (fun t => t.advanceIndex x)

/-- One step of FX65's loop: V[k] <- MemRead(I + k) (R145). -/
def loadReg (base k : Nat) (t : State) : Except Fault State :=
  match memRead (base + k) t with
  | .ok b => .ok (t.setReg (regIndex k) b)
  | .error f => .error f

/-- FX65 (R145): V[0] to V[X] from I and up, ascending; then the index quirk. -/
def execLoadRegs (x : Nibble) (s : State) : Result :=
  finish (forUp (x.toNat + 1) 0 (loadReg (s.indexed 0)) s.advance) (fun t => t.advanceIndex x)

end Sys2Proof.Machine
end

