-- ==== Sys2Proof/Machine/Keypad.lean ====
section
/-! DEFINITION. Keypad and timer instructions (44_keypad_timers.md). -/

namespace Sys2Proof.Machine

/-- EX9E (R170): skip if the named key is down; a diagnostic and no skip if V[X] names none (log 23). -/
def execSkp (x : Nibble) (s : State) : Result :=
  match s.namedKey x with
  | some k => .next (s.advance.skipIf (s.keyDown k))
  | none => .next (diagnose .keyIndexOutOfRange (encode (.skp x)) s.pc s.advance)

/-- EXA1 (R171): skip if the named key is not down; a diagnostic and no skip if V[X] names none (log 23). -/
def execSknp (x : Nibble) (s : State) : Result :=
  match s.namedKey x with
  | some k => .next (s.advance.skipIf (!s.keyDown k))
  | none => .next (diagnose .keyIndexOutOfRange (encode (.sknp x)) s.pc s.advance)

/-- FX0A (R172): start or keep waiting with `pc` rewound, or consume the captured key. `keys` is not looked at. -/
def execLdKey (x : Nibble) (s : State) : Result :=
  match s.aks with
  | .idle => .next ((s.advance.setAks .awaitingPress).rewind)
  | .awaitingPress => .next s.advance.rewind
  | .captured k => .next ((s.advance.setReg x (keyByte k)).setAks .idle)

/-- FX07 (R173). -/
def execLdFromDt (x : Nibble) (s : State) : Result := .next (s.advance.setReg x s.dt)

/-- FX15 (R174). -/
def execLdToDt (x : Nibble) (s : State) : Result := .next (s.advance.setDt (s.reg x))

/-- FX18 (R175). -/
def execLdToSt (x : Nibble) (s : State) : Result := .next (s.advance.setSt (s.reg x))

end Sys2Proof.Machine
end

