-- ==== Sys2Proof/Machine/Execute.lean ====
section
/-! DEFINITION. One executor invocation (30_encoding.md R71). -/

namespace Sys2Proof.Machine

/-- Fetch, decode, execute one instruction (R71). A fault of the fetch precedes everything (R207); a word without a row is R78's.
The meanings advance `pc` themselves, before their effect. -/
def execute (s : State) : Result :=
  match fetch s with
  | .error f => .fault f
  | .ok w =>
    match decodeWord w with
    | .ok i => exec i s
    | .error _ => .next (unknownOpcode w s)

end Sys2Proof.Machine
end

