-- ==== Sys2Proof/Machine/Scheduler.lean ====
section
/-! DEFINITION. The clock scheduler and the loop (60_exceptions.md R221 to R227), and the atomic actions by themselves (R229). -/

namespace Sys2Proof.Machine

/-- Go on after a step that answered a next state; a fault or a refusal ends the run. -/
def andThen (r : Result) (f : State → Result) : Result :=
  match r with
  | .next s => f s
  | .fault e => .fault e
  | .refused e => .refused e

/-- The gate test of R221 and R222: elapsed >= period, as the exact comparison elapsed * f >= TICKS_PER_SECOND. -/
def gateDue (cfg : Config) (freq lastFired now : Nat) : Bool :=
  decide ((now - lastFired) * freq ≥ cfg.ticksPerSecond)

/-- lf_insn <- t (R221). -/
def State.setLfInsn (s : State) (t : Nat) : State := { s with gates := { s.gates with insn := t } }
/-- lf_timer <- t (R221). -/
def State.setLfTimer (s : State) (t : Nat) : State := { s with gates := { s.gates with timer := t } }
/-- lf_disp <- t (R221). -/
def State.setLfDisp (s : State) (t : Nat) : State := { s with gates := { s.gates with disp := t } }

/-- Gate(insn, now) with action Execute() (R221, R223). -/
def insnGate (now : Nat) (s : State) : Result :=
  if gateDue s.cfg s.cfg.instructionsPerSecond s.gates.insn now then
    andThen (execute s) (fun t => .next (t.setLfInsn now))
  else .next s

/-- Gate(timer, now) with action Tick() (R221, R223). -/
def timerGate (now : Nat) (s : State) : State :=
  if gateDue s.cfg s.cfg.timerFrequency s.gates.timer now then (tick s).setLfTimer now else s

/-- Gate(disp, now) with action present(), evaluated only when decoupled (R223, R225). -/
def dispGate (now : Nat) (s : State) : State :=
  if s.cfg.decoupleDisplay && gateDue s.cfg s.cfg.frameRate s.gates.disp now then (present s).setLfDisp now else s

/-- Poll(now) (R223): instruction, timer, display, against one sample of `now` (log 18). -/
def poll (now : Nat) (s : State) : Result :=
  andThen (insnGate now s) (fun t => .next (dispGate now (timerGate now t)))

/-- Remember the sample of `now` (R220, log 12). -/
def State.sampleNow (s : State) (now : Nat) : State := { s with io := { s.io with now := now } }

/-- Iteration(events, now, quit) (R227): drain the events, poll once, test quit. A sample of `now` below an earlier one is
refused (R220, R232, U8, log 12). -/
def iteration (events : List KeyEvent) (now : Nat) (quit : Bool) (s : State) : Result :=
  if now < s.io.now then .refused (.clockRanBackwards s.io.now now)
  else andThen (poll now ((drainEvents events s).sampleNow now))
    (fun t => .next (if quit then stopLoop t else t))

/-- One atomic action by itself (R229). -/
def perform (a : Action) (s : State) : Result :=
  match a with
  | .key e => .next (keyEvent e s)
  | .execute => execute s
  | .tick => .next (tick s)
  | .refresh => .next (refresh s)
  | .stop => .next (stopLoop s)

/-- What the host makes the machine do in one step. -/
def takeTurn (t : Turn) (s : State) : Result :=
  match t with
  | .iteration events now quit => iteration events now quit s
  | .act a => perform a s

/-- The host's turns without the one being taken. -/
def State.setTurns (s : State) (turns : List Turn) : State := { s with io := { s.io with turns := turns } }

/-- One step: the host's next turn, or one executor invocation when it has none queued (R238, log 9). A stopped machine stays
as it is (R235, log 11). -/
def nextTurn (s : State) : Result :=
  if s.io.stopped then .next s
  else
    match s.io.turns with
    | [] => execute s
    | t :: rest => takeTurn t (s.setTurns rest)

end Sys2Proof.Machine
end

