-- ==== Sys2Proof/Machine/Step.lean ====
section
/-! DEFINITION. The step of the machine, and the placing of one instruction where it fetches next. -/

namespace Sys2Proof.Machine

/-- One step: the host's next turn, or one executor invocation (60_exceptions.md R227, R229; logs 9 and 11). -/
def step (s : State) : Host.Outcome State Fault Refusal := nextTurn s

/-- `s` with one instruction, its bits numbered as the opcode table numbers them, stored big-endian at `pc` (R70), and with the
host's queue empty and the loop running, so that the very next step fetches and runs it (log 9). -/
def State.withFetchWord (s : State) (nbits w : Nat) : State :=
  { s with
    mem := Memory.set s.cfg (Memory.set s.cfg s.mem s.pc.toNat (highByte (tableWord nbits w)))
      (s.pc.toNat + 1) (lowByte (tableWord nbits w))
    io := { s.io with turns := [], stopped := false } }

end Sys2Proof.Machine
end

