-- ==== Sys2Proof/Machine/Boot.lean ====
section
/-! DEFINITION. Reset with a configuration and a program (10_state.md R42, R43; 70_reset_and_hazards.md R260). The load is part
of the reset state, no step of CORE. -/

namespace Sys2Proof.Machine

/-- Why there is no initial state. -/
inductive LoadRefusal where
  /-- The configuration is outside R8 or has a frequency of 0 (R9, U9). -/
  | badConfig
  /-- The program does not fit, or overlaps the font (R43, U11). -/
  | badProgram
  deriving DecidableEq, Repr

/-- The admission test of R43 for a program of `len` bytes: it ends inside `mem` and does not overlap the font. -/
def loadAdmitted (cfg : Config) (len : Nat) : Bool :=
  decide (cfg.programBase + len ≤ cfg.memSize) &&
  (decide (len = 0) || decide (cfg.programBase + len ≤ cfg.fontBase) || decide (cfg.fontBase + fontBytes ≤ cfg.programBase))

/-- Copy bytes verbatim to ascending addresses (R43, R231). -/
def loadBytes (cfg : Config) : List Byte → Nat → Memory → Memory
  | [], _, m => m
  | b :: rest, a, m => loadBytes cfg rest (a + 1) (Memory.set cfg m a b)

/-- The state of R42 with the program in place, or a refusal (R9, R43). -/
def boot (cfg : Config) (program : List Byte) : Except LoadRefusal State :=
  if !cfg.wf then .error .badConfig
  else if !loadAdmitted cfg program.length then .error .badProgram
  else .ok { State.powerOn cfg with mem := loadBytes cfg program cfg.programBase [] }

end Sys2Proof.Machine
end

