-- ==== Sys2Proof/Safety.lean ====
section
/-! DEFINITION. The terms the claims use: what an instruction leaves unchanged, the invariants a step keeps, and when a program is
parked (70_reset_and_hazards.md R268). -/

namespace Sys2Proof.Machine

/-! ### Frames: what is left unchanged, every byte of memory included -/

/-- Every byte reads as before. -/
def SameBytes (s t : State) : Prop := ∀ a, t.byteAt a = s.byteAt a

/-- Every byte outside `stored` reads as before. -/
def SameBytesOutside (stored : Nat → Prop) (s t : State) : Prop := ∀ a, ¬ stored a → t.byteAt a = s.byteAt a

/-- Every register outside `ws` holds what it held. -/
def SameRegsOutside (ws : List Nibble) (s t : State) : Prop := ∀ z, z ∉ ws → t.reg z = s.reg z

/-- Nothing changed but `pc`. -/
def OnlyPc (s t : State) : Prop := t = { s with pc := t.pc } ∧ SameBytes s t

/-- Nothing changed but `pc` and the registers in `ws`. -/
def OnlyRegs (ws : List Nibble) (s t : State) : Prop :=
  t = { s with pc := t.pc, v := t.v } ∧ SameRegsOutside ws s t ∧ SameBytes s t

/-- Nothing changed but `pc`, `I` and the registers in `ws`. -/
def OnlyIndexAndRegs (ws : List Nibble) (s t : State) : Prop :=
  t = { s with pc := t.pc, i := t.i, v := t.v } ∧ SameRegsOutside ws s t ∧ SameBytes s t

/-- Nothing changed but `pc` and the call stack. -/
def OnlyStack (s t : State) : Prop :=
  t = { s with pc := t.pc, stack := t.stack, sp := t.sp } ∧ SameRegsOutside [] s t ∧ SameBytes s t

/-- Nothing changed but `pc`, and one diagnostic was appended to the log, naming the word and its fetch address (R201; the
address is the spec's decision D15, log 10). -/
def OnlyPcAndDiag (kind : DiagKind) (w : Word) (s t : State) : Prop :=
  t = { s with pc := t.pc, io := { s.io with out := s.io.out ++ [.diag ⟨kind, w, s.pc⟩] } } ∧ SameBytes s t

/-- Nothing changed but `pc`, `I`, and bytes of memory in `stored`. -/
def OnlyIndexAndBytes (stored : Nat → Prop) (s t : State) : Prop :=
  t = { s with pc := t.pc, i := t.i, mem := t.mem } ∧ SameRegsOutside [] s t ∧ SameBytesOutside stored s t

/-- The addresses of the display region (R51). -/
def inDisplay (cfg : Config) (a : Nat) : Prop := cfg.displayBase ≤ a ∧ a < cfg.displayBase + fbBytes

/-- The output events after 00E0 or DXYN: one present event with the framebuffer as it now is, unless decoupled (R166).
What the event carries is the spec's decision D26 (log 10), that it comes also where nothing changed D25 (log 22). -/
def outAfterDisplay (s t : State) : List Output :=
  if s.cfg.decoupleDisplay then s.io.out else s.io.out ++ [.present t.framebuffer]

/-- Nothing changed but `pc`, the registers in `ws`, bytes of the display region, and the present event of R166. -/
def OnlyDisplay (ws : List Nibble) (s t : State) : Prop :=
  t = { s with pc := t.pc, v := t.v, mem := t.mem, io := { s.io with out := outAfterDisplay s t } } ∧
  SameRegsOutside ws s t ∧ SameBytesOutside (inDisplay s.cfg) s t

/-! ### Invariants -/

/-- What holds of every state a run from reset reaches: the configuration is one R8 and R9 admit, memory is in canonical form,
and no gate fired after the latest sample of `now` (R220, R221). -/
structure State.Inv (s : State) : Prop where
  config : s.cfg.wf = true
  memory : Memory.wf s.cfg s.mem = true
  insnGate : s.gates.insn ≤ s.io.now
  timerGate : s.gates.timer ≤ s.io.now
  dispGate : s.gates.disp ≤ s.io.now

/-- R176: while `aks` is not Idle, `pc` points at an FX0A instruction. -/
def State.AwaitsAtKeyInstr (s : State) : Prop := s.aks ≠ .idle → ∃ x, fetch s = .ok (encode (.ldKey x))

/-- R268: the next instruction is a jump to its own address. -/
def State.Parked (s : State) : Prop :=
  ∃ a : Nat, a < 4096 ∧ a + 1 < s.cfg.memSize ∧ s.pc = BitVec.ofNat 16 a ∧
    s.byteAt a = BitVec.ofNat 8 (0x10 + a / 256) ∧ s.byteAt (a + 1) = BitVec.ofNat 8 (a % 256)

/-! ### The scheduler -/

/-- What an iteration does after its executor invocation, if any, has led to `v`: the timer gate, the display gate, the test of
`quit` (R223, R225, R227). Whether a gate is due is read from `s`, the state before the iteration. -/
def State.restOfIteration (s : State) (now : Nat) (quit : Bool) (v : State) : State :=
  let ticked := if (now - s.gates.timer) * s.cfg.timerFrequency ≥ s.cfg.ticksPerSecond then (tick v).setLfTimer now else v
  let shown :=
    if s.cfg.decoupleDisplay = true ∧ (now - s.gates.disp) * s.cfg.frameRate ≥ s.cfg.ticksPerSecond then
      (present ticked).setLfDisp now
    else ticked
  if quit then stopLoop shown else shown

/-! ### The log -/

/-- Whether an output event is a present event (R226). -/
def Output.isPresent : Output → Bool
  | .present _ => true
  | .diag _ => false

/-- The number of present events so far. -/
def State.presents (s : State) : Nat := s.io.out.countP Output.isPresent

/-- The number of diagnostics so far (R201). -/
def State.diags (s : State) : Nat := s.io.out.countP (fun o => !o.isPresent)

/-! ### The sprite of a DXYN -/

/-- Row `r` of the sprite as it lies in memory before the draw (R161). -/
def State.spriteByte (s : State) (r : Nat) : Byte := s.byteAt (s.indexed r)

/-- The sprite lies outside the display region, so that no row is changed by the draw itself (R164, R266). -/
def State.SpriteOutsideDisplay (s : State) (n : Nat) : Prop := ∀ r, r < n → ¬ inDisplay s.cfg (s.indexed r)

/-- The sprite of DXYN, its origin wrapped and its pixels clipped, lights column `col` and row `row` (R161, R163). -/
def State.spriteLights (s : State) (x y n : Nibble) (col row : Nat) : Prop :=
  ∃ c r, c < 8 ∧ r < n.toNat ∧ col = s.originColumn x + c ∧ row = s.originRow y + r ∧ col < 64 ∧ row < 32 ∧
    (s.spriteByte r).getLsbD (7 - c) = true

end Sys2Proof.Machine
end

