-- ==== Sys2Proof/Certificates/Slice0/Obligations.lean ====
section
/-! DEFINITION. The statements for the provers, from the numbered rules of spec/. The state they speak of is any state at all
unless a premise says otherwise; `State.Inv` is the invariant that a step keeps (StepKeepsInvariant). -/

open Sys2Proof Sys2Proof.Machine

/-! ### Encoding and decoding (30_encoding.md) -/

/-- R70, R72, R76: what the encoder writes, the decoder reads back, for every well-formed instruction, whatever bytes follow. -/
def Obligations.DecodeOfEncode : Prop :=
  ∀ (i : Instr) (rest : List Byte), i.wf = true → decode (encodeBytes i ++ rest) = .ok (i, rest)

/-- R76: a word that decodes is the encoding of the well-formed instruction it decodes to. -/
def Obligations.EncodeOfDecode : Prop :=
  ∀ (w : Word) (i : Instr), decodeWord w = .ok i → encode i = w ∧ i.wf = true

/-- R76, R78: the decoder accepts exactly the words that select a row of the table. That the literal digits of families 0, 5 and
9 are decoded is the spec's decision D11 (log 20). -/
def Obligations.DecodesIffRowSelects : Prop :=
  ∀ w : Word, (∃ i, decodeWord w = .ok i) ↔ ∃ r ∈ opcodeTable, r.selects w = true

/-- R74: no two rows of the table match the same word. It is the spec's own inference from the columns of R76. -/
def Obligations.NoWordSelectsTwoRows : Prop :=
  opcodeTable.Pairwise (fun r q => ∀ w : Word, ¬ (r.selects w = true ∧ q.selects w = true))

/-- R72, R73, R77: words written out from the spec's encodings decode to the instructions they stand for. That 0x5121 is unknown
is the spec's decision D11 (log 20). -/
def Obligations.WordsOfTheSpecDecode : Prop :=
  decodeWord 0xD12A = .ok (.drw 0x1 0x2 0xA) ∧ decodeWord 0x3A7F = .ok (.seImm 0xA 0x7F) ∧
  decodeWord 0xBFFF = .ok (.jpOffset 0xFFF 0xF) ∧ decodeWord 0xF265 = .ok (.loadRegs 0x2) ∧
  decodeWord 0x812E = .ok (.shl 0x1 0x2) ∧ decodeWord 0xE0A1 = .ok (.sknp 0x0) ∧
  decodeWord 0x00EE = .ok .ret ∧ decodeWord 0x5121 = .error (.unknownOpcode 0x5121)

/-- R78: a word that selects no row advances `pc` by 2 and emits one UnknownOpcode diagnostic, and changes nothing else. That the
diagnostic records the fetch address is the spec's decision D15 (log 10); that a row selects by every literal digit, so which
words are unknown, is D11 (log 20). -/
def Obligations.UnknownWordOnlyAdvancesAndLogs : Prop :=
  ∀ (s : State) (w : Word), fetch s = .ok w → (∀ r ∈ opcodeTable, r.selects w = false) →
    ∃ t, execute s = .next t ∧ t.pc = s.pc + 2 ∧ OnlyPcAndDiag .unknownOpcode w s t

/-! ### Fetch and step -/

/-- R71, R227, R229, R238: what a step is. At bytes that decode to an instruction it is that instruction's `exec` at that state,
where the host has queued no turn and the loop runs; where its next turn is the action Execute, the turn is taken off the queue
first. Any other queued turn is taken off likewise and is the key event (R210, R211), the tick (R215), the refresh, the stop
(R235) or the iteration at the state without it. A refresh is one present event with the framebuffer as it is when decoupled,
and nothing otherwise (R225, R226). Each meaning advances `pc` itself. How the host's turns enter a step is the model's choice
(log 9), that a refresh exists only when decoupled is the spec's decision D25 (logs 18, 22), and what it carries D26 (log 10).
-/
def Obligations.StepRunsTheDecodedInstruction : Prop :=
  ∀ s : State, s.io.stopped = false →
    (∀ i : Instr, s.pc.toNat + 1 < s.cfg.memSize →
      decode [s.byteAt s.pc.toNat, s.byteAt (s.pc.toNat + 1)] = .ok (i, []) →
      (s.io.turns = [] → step s = exec i s) ∧
      (∀ rest, s.io.turns = .act .execute :: rest → step s = exec i (s.setTurns rest))) ∧
    (∀ rest k, s.io.turns = .act (.key (.down k)) :: rest → step s = .next (keyPressed k (s.setTurns rest))) ∧
    (∀ rest k, s.io.turns = .act (.key (.up k)) :: rest → step s = .next (keyReleased k (s.setTurns rest))) ∧
    (∀ rest, s.io.turns = .act .tick :: rest → step s = .next (tick (s.setTurns rest))) ∧
    (∀ rest, s.io.turns = .act .refresh :: rest → step s = .next (if s.cfg.decoupleDisplay = true then
      { s with io := { s.io with turns := rest, out := s.io.out ++ [.present s.framebuffer] } } else s.setTurns rest)) ∧
    (∀ rest, s.io.turns = .act .stop :: rest → step s = .next { s with io := { s.io with turns := rest, stopped := true } }) ∧
    (∀ rest events now quit, s.io.turns = .iteration events now quit :: rest →
      step s = iteration events now quit (s.setTurns rest))

/-- R52, R53, R62: a read gives the byte of the latest write to its address, and a write reaches no other address. -/
def Obligations.ReadGivesLatestWrite : Prop :=
  ∀ (s : State) (a : Nat) (b : Byte), Memory.wf s.cfg s.mem = true → a < s.cfg.memSize →
    ∃ t, memWrite a b s = .ok t ∧ memRead a t = .ok b ∧ (∀ c, c ≠ a → memRead c t = memRead c s) ∧
      Memory.wf t.cfg t.mem = true

/-- R54, R207: a read, a write and a fetch are the model fault at the first address they use that is MEM_SIZE or more, a fetch
before any decoding; below MEM_SIZE they are none. The fault is the spec's decision D6 (log 7). -/
def Obligations.AccessFaultsExactlyBeyondMemory : Prop :=
  ∀ (s : State) (a : Nat) (b : Byte),
    (a < s.cfg.memSize → memRead a s = .ok (s.byteAt a) ∧ ∃ t, memWrite a b s = .ok t) ∧
    (s.cfg.memSize ≤ a → memRead a s = .error (.addrOutOfRange a) ∧ memWrite a b s = .error (.addrOutOfRange a)) ∧
    (s.cfg.memSize ≤ s.pc.toNat → execute s = .fault (.addrOutOfRange s.pc.toNat)) ∧
    (s.pc.toNat + 1 = s.cfg.memSize → execute s = .fault (.addrOutOfRange (s.pc.toNat + 1))) ∧
    (s.pc.toNat + 1 < s.cfg.memSize → fetch s = .ok (bigEndian (s.byteAt s.pc.toNat) (s.byteAt (s.pc.toNat + 1))))

/-- R65: what an instruction stores is what the next fetch reads, for each of the four that store and for either byte of the
fetched word: FX55 with any X, FX33, 00E0 with code in the display region, and DXYN with code there (bit by bit, its sprite
lying outside that region); a byte not stored to is fetched as it was. -/
def Obligations.StoreIsSeenByNextFetch : Prop :=
  ∀ (s : State) (p : Nat), Memory.wf s.cfg s.mem = true → p = s.pc.toNat + 2 → p + 1 < 65536 → p + 1 < s.cfg.memSize →
    (∀ x : Nibble, s.i.toNat + x.toNat < s.cfg.memSize →
      ∃ (t : State) (b : Nat → Byte), exec (.storeRegs x) s = .next t ∧ fetch t = .ok (bigEndian (b p) (b (p + 1))) ∧
        (∀ k : Nibble, k.toNat ≤ x.toNat → b (s.i.toNat + k.toNat) = s.reg k) ∧
        (∀ a, ¬ (s.i.toNat ≤ a ∧ a ≤ s.i.toNat + x.toNat) → b a = s.byteAt a)) ∧
    (∀ x : Nibble, s.i.toNat + 2 < s.cfg.memSize →
      ∃ (t : State) (b : Nat → Byte), exec (.ldDigits x) s = .next t ∧ fetch t = .ok (bigEndian (b p) (b (p + 1))) ∧
        (b s.i.toNat).toNat = (s.reg x).toNat / 100 ∧ (b (s.i.toNat + 1)).toNat = (s.reg x).toNat / 10 % 10 ∧
        (b (s.i.toNat + 2)).toNat = (s.reg x).toNat % 10 ∧
        (∀ a, ¬ (s.i.toNat ≤ a ∧ a ≤ s.i.toNat + 2) → b a = s.byteAt a)) ∧
    (s.cfg.wf = true →
      ∃ (t : State) (b : Nat → Byte), exec .cls s = .next t ∧ fetch t = .ok (bigEndian (b p) (b (p + 1))) ∧
        (∀ a, inDisplay s.cfg a → b a = 0) ∧ (∀ a, ¬ inDisplay s.cfg a → b a = s.byteAt a)) ∧
    (∀ x y n : Nibble, s.cfg.wf = true → (n = 0 ∨ s.i.toNat + n.toNat ≤ s.cfg.memSize) → s.SpriteOutsideDisplay n.toNat →
      ∃ (t : State) (b : Nat → Byte), exec (.drw x y n) s = .next t ∧ fetch t = .ok (bigEndian (b p) (b (p + 1))) ∧
        (∀ col row, col < 64 → row < 32 → ((b (s.cfg.displayBase + row * 8 + col / 8)).getLsbD (7 - col % 8) = true ↔
          ¬ (s.pixel col row = true ↔ s.spriteLights x y n col row))) ∧
        (∀ a, ¬ inDisplay s.cfg a → b a = s.byteAt a))

/-! ### Control transfer and skips (40_flow.md) -/

/-- R101: 1NNN sets `pc` to NNN, zero-extended, and changes nothing else. -/
def Obligations.JumpSetsPcToTarget : Prop :=
  ∀ (s : State) (nnn : Addr12), ∃ t, exec (.jp nnn) s = .next t ∧ t.pc.toNat = nnn.toNat ∧ OnlyPc s t

/-- R31, R102: 2NNN pushes the address after it and jumps; on a full stack it stores nothing, logs StackOverflow and still
jumps. What a full stack does is the spec's decision D10 (log 14), that its diagnostic records the fetch address D15 (log 10).
That a push keeps the entries above `sp` is the model's choice (log 16; R29 leaves it open). The instruction word of R201 is
formed here as the instruction's encoding (log 17). -/
def Obligations.CallPushesAndJumps : Prop :=
  ∀ (s : State) (nnn : Addr12),
    (s.sp.val < 16 → ∃ t, exec (.call nnn) s = .next t ∧ t.pc.toNat = nnn.toNat ∧ t.sp.val = s.sp.val + 1 ∧
      (∀ (k : Nat) (h : k < 16), t.stack[k] = if k = s.sp.val then s.pc + 2 else s.stack[k]) ∧ OnlyStack s t) ∧
    (s.sp.val = 16 → ∃ t, exec (.call nnn) s = .next t ∧ t.pc.toNat = nnn.toNat ∧
      OnlyPcAndDiag .stackOverflow (encode (.call nnn)) s t)

/-- R32, R100: 00EE pops the top entry into `pc`; on an empty stack it logs StackUnderflow and `pc` becomes 0x0000. What an
empty stack does is the spec's decision D10 (log 14), that its diagnostic records the fetch address D15 (log 10). That a pop keeps
the popped entry, which is then not architectural (R29), is the model's choice (log 16). -/
def Obligations.ReturnPopsIntoPc : Prop :=
  ∀ s : State,
    (∀ (k : Nat) (h : k < 16), s.sp.val = k + 1 →
      ∃ t, exec .ret s = .next t ∧ t.pc = s.stack[k] ∧ t.sp.val = k ∧ t.stack = s.stack ∧ OnlyStack s t) ∧
    (s.sp.val = 0 → ∃ t, exec .ret s = .next t ∧ t.pc = 0 ∧ OnlyPcAndDiag .stackUnderflow 0x00EE s t)

/-- R100, R102 (source property S2): a call followed by a return comes back to the address after the call, with the stack depth
and every valid entry as before. -/
def Obligations.CallThenReturnComesBack : Prop :=
  ∀ (s : State) (nnn : Addr12), s.sp.val < 16 →
    ∃ t u, exec (.call nnn) s = .next t ∧ exec .ret t = .next u ∧ u.pc = s.pc + 2 ∧ u.sp = s.sp ∧
      (∀ (k : Nat) (h : k < 16), k < s.sp.val → u.stack[k] = s.stack[k]) ∧ u.io = s.io ∧ SameRegsOutside [] s u ∧ SameBytes s u

/-- R103, R104: 3XNN skips exactly when V[X] = NN, 4XNN exactly when V[X] != NN; nothing but `pc` changes. -/
def Obligations.ImmediateSkips : Prop :=
  ∀ (s : State) (x : Nibble) (nn : Byte),
    (∃ t, exec (.seImm x nn) s = .next t ∧ t.pc = (if s.reg x = nn then s.pc + 4 else s.pc + 2) ∧ OnlyPc s t) ∧
    (∃ t, exec (.sneImm x nn) s = .next t ∧ t.pc = (if s.reg x = nn then s.pc + 2 else s.pc + 4) ∧ OnlyPc s t)

/-- R105, R106: 5XY0 skips exactly when V[X] = V[Y], 9XY0 exactly when they differ; nothing but `pc` changes. -/
def Obligations.RegisterSkips : Prop :=
  ∀ (s : State) (x y : Nibble),
    (∃ t, exec (.seReg x y) s = .next t ∧ t.pc = (if s.reg x = s.reg y then s.pc + 4 else s.pc + 2) ∧ OnlyPc s t) ∧
    (∃ t, exec (.sneReg x y) s = .next t ∧ t.pc = (if s.reg x = s.reg y then s.pc + 2 else s.pc + 4) ∧ OnlyPc s t)

/-- R107: BNNN sets `pc` to NNN + V[0] in legacy mode and NNN + V[X] in indexed mode, not reduced. That indexed mode adds to the
whole NNN is the spec's decision D31 (log 25). -/
def Obligations.OffsetJumpAddsSelectedRegister : Prop :=
  ∀ (s : State) (nnn : Addr12) (x : Nibble), (Instr.jpOffset nnn x).wf = true →
    ∃ t, exec (.jpOffset nnn x) s = .next t ∧ OnlyPc s t ∧
      (s.cfg.jumpWithOffsetMode = .legacy → t.pc.toNat = nnn.toNat + (s.reg 0).toNat) ∧
      (s.cfg.jumpWithOffsetMode = .indexed → t.pc.toNat = nnn.toNat + (s.reg (topDigit nnn)).toNat)

/-! ### Load, arithmetic, logic, shift, random (41_alu.md) -/

/-- R121, R123: 6XNN sets V[X] to NN, 8XY0 copies V[Y] to V[X]; no other register, VF included, and nothing else changes. That
8XY0 leaves VF alone is the spec's decision D32 (log 25). -/
def Obligations.LoadsSetTheDestination : Prop :=
  ∀ (s : State) (x y : Nibble) (nn : Byte),
    (∃ t, exec (.ldImm x nn) s = .next t ∧ t.reg x = nn ∧ t.pc = s.pc + 2 ∧ OnlyRegs [x] s t) ∧
    (∃ t, exec (.ldReg x y) s = .next t ∧ t.reg x = s.reg y ∧ t.pc = s.pc + 2 ∧ OnlyRegs [x] s t)

/-- R122: 7XNN adds NN modulo 256 with no flag change. -/
def Obligations.AddImmediateWraps : Prop :=
  ∀ (s : State) (x : Nibble) (nn : Byte),
    ∃ t, exec (.addImm x nn) s = .next t ∧ (t.reg x).toNat = ((s.reg x).toNat + nn.toNat) % 256 ∧
      t.pc = s.pc + 2 ∧ OnlyRegs [x] s t

/-- R124, R125, R126: OR, AND and XOR bit by bit, VF not written unless it is the destination. That VF is left alone is the
spec's decision D32 (log 25). -/
def Obligations.LogicIsBitwise : Prop :=
  ∀ (s : State) (x y : Nibble),
    (∃ t, exec (.orReg x y) s = .next t ∧ t.pc = s.pc + 2 ∧ OnlyRegs [x] s t ∧
      ∀ b, b < 8 → (t.reg x).getLsbD b = ((s.reg x).getLsbD b || (s.reg y).getLsbD b)) ∧
    (∃ t, exec (.andReg x y) s = .next t ∧ t.pc = s.pc + 2 ∧ OnlyRegs [x] s t ∧
      ∀ b, b < 8 → (t.reg x).getLsbD b = ((s.reg x).getLsbD b && (s.reg y).getLsbD b)) ∧
    (∃ t, exec (.xorReg x y) s = .next t ∧ t.pc = s.pc + 2 ∧ OnlyRegs [x] s t ∧
      ∀ b, b < 8 → (t.reg x).getLsbD b = ((s.reg x).getLsbD b ^^ (s.reg y).getLsbD b))

/-- R120, R127: 8XY4 leaves the sum modulo 256 in V[X], also at X = 0xF; otherwise VF is 1 exactly when the sum exceeds 255.
What X = 0xF leaves is the spec's decision D8 (log 13). -/
def Obligations.AddSetsCarry : Prop :=
  ∀ (s : State) (x y : Nibble),
    ∃ t, exec (.addReg x y) s = .next t ∧ (t.reg x).toNat = ((s.reg x).toNat + (s.reg y).toNat) % 256 ∧
      (x ≠ vf → (t.reg vf).toNat = if (s.reg x).toNat + (s.reg y).toNat > 255 then 1 else 0) ∧
      t.pc = s.pc + 2 ∧ OnlyRegs [x, vf] s t

/-- R120, R128, R130: 8XY5 leaves V[X] - V[Y] and 8XY7 leaves V[Y] - V[X] modulo 256 in V[X], also at X = 0xF; otherwise VF is 1
exactly when there is no borrow. What X = 0xF leaves is the spec's decision D8 (log 13). -/
def Obligations.SubtractsSetNoBorrow : Prop :=
  ∀ (s : State) (x y : Nibble),
    (∃ t, exec (.subReg x y) s = .next t ∧ (t.reg x).toNat = ((s.reg x).toNat + 256 - (s.reg y).toNat) % 256 ∧
      (x ≠ vf → (t.reg vf).toNat = if (s.reg x).toNat ≥ (s.reg y).toNat then 1 else 0) ∧
      t.pc = s.pc + 2 ∧ OnlyRegs [x, vf] s t) ∧
    (∃ t, exec (.subn x y) s = .next t ∧ (t.reg x).toNat = ((s.reg y).toNat + 256 - (s.reg x).toNat) % 256 ∧
      (x ≠ vf → (t.reg vf).toNat = if (s.reg y).toNat ≥ (s.reg x).toNat then 1 else 0) ∧
      t.pc = s.pc + 2 ∧ OnlyRegs [x, vf] s t)

/-- R120, R129, R131: the shifts by one of V[Y] under the quirk, else of V[X]; VF is the bit shifted out unless X = 0xF. What X
= 0xF leaves is the spec's decision D8 (log 13). -/
def Obligations.ShiftsByOne : Prop :=
  ∀ (s : State) (x y : Nibble) (v : Nat),
    v = (if s.cfg.shiftCopiesSourceRegister = true then (s.reg y).toNat else (s.reg x).toNat) →
    (∃ t, exec (.shr x y) s = .next t ∧ (t.reg x).toNat = v / 2 ∧ (x ≠ vf → (t.reg vf).toNat = v % 2) ∧
      t.pc = s.pc + 2 ∧ OnlyRegs [x, vf] s t) ∧
    (∃ t, exec (.shl x y) s = .next t ∧ (t.reg x).toNat = v * 2 % 256 ∧ (x ≠ vf → (t.reg vf).toNat = v / 128) ∧
      t.pc = s.pc + 2 ∧ OnlyRegs [x, vf] s t)

/-- R132: CXNN leaves the drawn byte AND NN in V[X], whatever byte is drawn, and uses up that draw; no flag. The byte is the one
the host drives on port `rnd` next, and where the state holds none yet the free value at this draw. Where the byte comes from is
the model's choice (log 8). -/
def Obligations.RandomIsMaskedDraw : Prop :=
  ∀ (s : State) (x : Nibble) (nn : Byte),
    ∃ t, exec (.rnd x nn) s = .next t ∧ t.reg x = s.rndByte &&& nn ∧ t.reg x &&& ~~~nn = 0 ∧ t.pc = s.pc + 2 ∧
      (∀ b rest, s.io.rndIn = b :: rest → t.reg x = b &&& nn ∧ t.io.rndIn = rest) ∧
      (s.io.rndIn = [] → t.reg x = Config.freeRnd s.io.draws &&& nn ∧ t.io.rndIn = []) ∧
      t = { s with pc := t.pc, v := t.v, io := { s.io with rndIn := s.io.rndIn.tail, draws := s.io.draws + 1 } } ∧
      SameRegsOutside [x] s t ∧ SameBytes s t

/-! ### Index register and memory (42_index_memory.md) -/

/-- R140, R142: ANNN sets `I` to NNN; FX29 sets it to FONT_BASE + 5 * V[X] modulo 65536, V[X] not masked. That FX29 does not
mask is the spec's decision D28 (log 25), and reducing I modulo 65536 D18 (log 21). -/
def Obligations.IndexLoads : Prop :=
  ∀ (s : State) (nnn : Addr12) (x : Nibble),
    (∃ t, exec (.ldI nnn) s = .next t ∧ t.i.toNat = nnn.toNat ∧ t.pc = s.pc + 2 ∧ OnlyIndexAndRegs [] s t) ∧
    (∃ t, exec (.ldGlyph x) s = .next t ∧ t.i.toNat = (s.cfg.fontBase + 5 * (s.reg x).toNat) % 65536 ∧
      t.pc = s.pc + 2 ∧ OnlyIndexAndRegs [] s t)

/-- R141: FX1E adds V[X] to `I` modulo 65536; VF becomes 1 when the unreduced sum reaches MEM_SIZE, else 0 only with
FX1E_CLEARS_VF, and is otherwise not written. Leaving VF alone below MEM_SIZE and comparing the unreduced sum are the spec's
decision D9 (log 15). Reducing I modulo 65536 is the spec's decision D18 (log 21). -/
def Obligations.AddToIndexFlagsRange : Prop :=
  ∀ (s : State) (x : Nibble),
    ∃ t, exec (.addI x) s = .next t ∧ t.i.toNat = (s.i.toNat + (s.reg x).toNat) % 65536 ∧
      (t.reg vf = if s.i.toNat + (s.reg x).toNat ≥ s.cfg.memSize then 1
        else if s.cfg.fx1eClearsVf = true then 0 else s.reg vf) ∧
      t.pc = s.pc + 2 ∧ OnlyIndexAndRegs [vf] s t

/-- R143: FX33 stores the three decimal digits of V[X] at I, I + 1, I + 2, and changes no other byte and no register. -/
def Obligations.DigitsAreStored : Prop :=
  ∀ (s : State) (x : Nibble), Memory.wf s.cfg s.mem = true → s.i.toNat + 2 < s.cfg.memSize →
    ∃ t, exec (.ldDigits x) s = .next t ∧ t.pc = s.pc + 2 ∧ t.i = s.i ∧
      (t.byteAt (s.indexed 0)).toNat = (s.reg x).toNat / 100 ∧
      (t.byteAt (s.indexed 1)).toNat = (s.reg x).toNat / 10 % 10 ∧
      (t.byteAt (s.indexed 2)).toNat = (s.reg x).toNat % 10 ∧
      OnlyIndexAndBytes (fun a => s.indexed 0 ≤ a ∧ a < s.indexed 3) s t

/-- R144: FX55 stores V[0] to V[X] at I to I + X, changes no other byte and no register, and advances `I` by X + 1 only under
the quirk. Reducing I modulo 65536 is the spec's decision D18 (log 21). -/
def Obligations.RegistersAreStored : Prop :=
  ∀ (s : State) (x : Nibble), Memory.wf s.cfg s.mem = true → s.i.toNat + x.toNat < s.cfg.memSize →
    ∃ t, exec (.storeRegs x) s = .next t ∧ t.pc = s.pc + 2 ∧
      (∀ k : Nibble, k.toNat ≤ x.toNat → t.byteAt (s.indexed k.toNat) = s.reg k) ∧
      (t.i.toNat = if s.cfg.loadStoreAdvancesIndex = true then (s.i.toNat + x.toNat + 1) % 65536 else s.i.toNat) ∧
      OnlyIndexAndBytes (fun a => s.indexed 0 ≤ a ∧ a < s.indexed (x.toNat + 1)) s t

/-- R145: FX65 loads V[0] to V[X] from I to I + X, leaves the registers above V[X] and all of memory, and advances `I` by X + 1
only under the quirk. Reducing I modulo 65536 is the spec's decision D18 (log 21). -/
def Obligations.RegistersAreLoaded : Prop :=
  ∀ (s : State) (x : Nibble), s.i.toNat + x.toNat < s.cfg.memSize →
    ∃ t, exec (.loadRegs x) s = .next t ∧ t.pc = s.pc + 2 ∧
      (∀ k : Nibble, t.reg k = if k.toNat ≤ x.toNat then s.byteAt (s.indexed k.toNat) else s.reg k) ∧
      (t.i.toNat = if s.cfg.loadStoreAdvancesIndex = true then (s.i.toNat + x.toNat + 1) % 65536 else s.i.toNat) ∧
      t = { s with pc := t.pc, i := t.i, v := t.v } ∧ SameBytes s t

/-- R54, R143, R144, R145: with a byte beyond memory these instructions are the model fault at the first address out of range.
The fault is the spec's decision D6 (log 7), the ascending order D20 (log 24). That I + k is not reduced before the range test
is the spec's decision D18 (log 21). -/
def Obligations.IndexedAccessBeyondMemoryFaults : Prop :=
  ∀ (s : State) (x : Nibble),
    (s.cfg.memSize ≤ s.i.toNat + 2 → exec (.ldDigits x) s = .fault (.addrOutOfRange (max s.i.toNat s.cfg.memSize))) ∧
    (s.cfg.memSize ≤ s.i.toNat + x.toNat →
      exec (.storeRegs x) s = .fault (.addrOutOfRange (max s.i.toNat s.cfg.memSize)) ∧
      exec (.loadRegs x) s = .fault (.addrOutOfRange (max s.i.toNat s.cfg.memSize)))

/-! ### Display (43_display.md) -/

/-- R160, R166: 00E0 zeroes every framebuffer bit, changes no register and no other byte, and presents unless decoupled.
Presenting also where no bit changed is the spec's decision D25 (log 22), and that the event carries the 256 display bytes D26
(log 10). -/
def Obligations.ClearZeroesTheFramebuffer : Prop :=
  ∀ s : State, s.cfg.wf = true → Memory.wf s.cfg s.mem = true →
    ∃ t, exec .cls s = .next t ∧ t.pc = s.pc + 2 ∧ (∀ a, inDisplay s.cfg a → t.byteAt a = 0) ∧
      (∀ col row, col < 64 → row < 32 → t.pixel col row = false) ∧ OnlyDisplay [] s t

/-- R161, R164, R166: with its sprite inside memory DXYN completes, changing only VF, which becomes 0 or 1, and display bytes,
and presents unless decoupled. Presenting also where no bit changed is the spec's decision D25 (log 22), and that the event
carries the 256 display bytes D26 (log 10). -/
def Obligations.DrawCompletesAndChangesOnlyTheDisplay : Prop :=
  ∀ (s : State) (x y n : Nibble), s.cfg.wf = true → (n = 0 ∨ s.i.toNat + n.toNat ≤ s.cfg.memSize) →
    ∃ t, exec (.drw x y n) s = .next t ∧ t.pc = s.pc + 2 ∧ (t.reg vf = 0 ∨ t.reg vf = 1) ∧ OnlyDisplay [vf] s t

/-- R161, R162, R163: DXYN toggles exactly the pixels its wrapped and clipped sprite lights, and VF becomes 1 exactly when one
of them was on, for a sprite that lies outside the display region. A sprite inside it, which the draw itself may change (R164,
R266), is left out here. -/
def Obligations.DrawTogglesTheLitPixels : Prop :=
  ∀ (s : State) (x y n : Nibble), s.cfg.wf = true → Memory.wf s.cfg s.mem = true →
    (n = 0 ∨ s.i.toNat + n.toNat ≤ s.cfg.memSize) → s.SpriteOutsideDisplay n.toNat →
    ∃ t, exec (.drw x y n) s = .next t ∧
      (∀ col row, col < 64 → row < 32 →
        (t.pixel col row = true ↔ ¬ (s.pixel col row = true ↔ s.spriteLights x y n col row))) ∧
      (t.reg vf = 1 ↔ ∃ col row, s.spriteLights x y n col row ∧ s.pixel col row = true)

/-- R162 (source property S7): drawing the same sprite twice at the same place gives every pixel back. -/
def Obligations.DrawTwiceRestoresPixels : Prop :=
  ∀ (s : State) (x y n : Nibble), s.cfg.wf = true → Memory.wf s.cfg s.mem = true → x ≠ vf → y ≠ vf →
    (n = 0 ∨ s.i.toNat + n.toNat ≤ s.cfg.memSize) → s.SpriteOutsideDisplay n.toNat →
    ∃ t u, exec (.drw x y n) s = .next t ∧ exec (.drw x y n) t = .next u ∧
      (∀ col row, col < 64 → row < 32 → u.pixel col row = s.pixel col row) ∧
      (u.reg vf = 1 ↔ ∃ col row, s.spriteLights x y n col row ∧ s.pixel col row = false)

/-- R167: the bit loop of one visible row has the effect of the closed form: two masked bytes are XORed, and VF becomes 1
exactly when a lit bit of a mask meets a lit bit of the display. R167 is the spec's own inference from R161 and R37. -/
def Obligations.RowLoopHasItsClosedForm : Prop :=
  ∀ (s : State) (ox oy r : Nat) (b : Byte), s.cfg.wf = true → Memory.wf s.cfg s.mem = true → ox < 64 → oy + r < 32 →
    ∃ t, forUp 8 0 (drawBit ox oy r b) s = .ok t ∧
      (∀ a, t.byteAt a =
        if a = s.cfg.displayBase + (oy + r) * 8 + ox / 8 then s.byteAt a ^^^ (b >>> (ox % 8))
        else if a = s.cfg.displayBase + (oy + r) * 8 + ox / 8 + 1 ∧ ox / 8 < 7 then s.byteAt a ^^^ (b <<< (8 - ox % 8))
        else s.byteAt a) ∧
      (t.reg vf =
        if s.byteAt (s.cfg.displayBase + (oy + r) * 8 + ox / 8) &&& (b >>> (ox % 8)) ≠ 0 ∨
          (ox / 8 < 7 ∧ s.byteAt (s.cfg.displayBase + (oy + r) * 8 + ox / 8 + 1) &&& (b <<< (8 - ox % 8)) ≠ 0)
        then 1 else s.reg vf)

/-- R164, R165: every one of the N rows is read, so a DXYN whose sprite reaches beyond memory is the model fault, also where the
row would be clipped; with N = 0 it reads none, resets VF and draws nothing. Reading clipped rows is the spec's decision D19
(log 22), the fault D6 (log 7), an address I + r that is not reduced D18 (log 21), the present where nothing is drawn D25 (log
22), and that the present carries the 256 display bytes D26 (log 10). -/
def Obligations.DrawReadsEveryRow : Prop :=
  ∀ (s : State) (x y n : Nibble), s.cfg.wf = true →
    (n ≠ 0 → s.cfg.memSize ≤ s.i.toNat + n.toNat - 1 →
      exec (.drw x y n) s = .fault (.addrOutOfRange (max s.i.toNat s.cfg.memSize))) ∧
    (n = 0 → ∃ t, exec (.drw x y n) s = .next t ∧ t.reg vf = 0 ∧ t.mem = s.mem ∧ OnlyDisplay [vf] s t)

/-- R166: 00E0 and DXYN present exactly once unless decoupled, and no other instruction ever presents. Presenting also where no
bit changed is the spec's decision D25 (log 22). -/
def Obligations.OnlyClearAndDrawPresent : Prop :=
  ∀ (i : Instr) (s t : State), exec i s = .next t →
    t.presents = s.presents +
      (if (i = .cls ∨ ∃ x y n, i = .drw x y n) ∧ s.cfg.decoupleDisplay = false then 1 else 0)

/-! ### Keypad and timers (44_keypad_timers.md) -/

/-- R170, R171: the key skips look at the level of key V[X]; above 15 they log KeyIndexOutOfRange and do not skip. That an index
above 15 is not masked and never skips is the spec's decision D30 (log 23), that its diagnostic records the fetch address D15
(log 10). The instruction word of R201 is formed here as the instruction's encoding (log 17). -/
def Obligations.KeySkips : Prop :=
  ∀ (s : State) (x k : Nibble),
    (s.reg x = keyByte k →
      (∃ t, exec (.skp x) s = .next t ∧ t.pc = (if s.keyDown k = true then s.pc + 4 else s.pc + 2) ∧ OnlyPc s t) ∧
      (∃ t, exec (.sknp x) s = .next t ∧ t.pc = (if s.keyDown k = true then s.pc + 2 else s.pc + 4) ∧ OnlyPc s t)) ∧
    ((s.reg x).toNat > 15 →
      (∃ t, exec (.skp x) s = .next t ∧ t.pc = s.pc + 2 ∧ OnlyPcAndDiag .keyIndexOutOfRange (encode (.skp x)) s t) ∧
      (∃ t, exec (.sknp x) s = .next t ∧ t.pc = s.pc + 2 ∧ OnlyPcAndDiag .keyIndexOutOfRange (encode (.sknp x)) s t))

/-- R172: FX0A in its three states: it starts to wait and rewinds, keeps waiting and rewinds, or delivers the captured key. -/
def Obligations.AwaitKeyInItsThreeStates : Prop :=
  ∀ (s : State) (x : Nibble),
    (s.aks = .idle → ∃ t, exec (.ldKey x) s = .next t ∧ t = { s with aks := .awaitingPress } ∧ SameBytes s t) ∧
    (s.aks = .awaitingPress → exec (.ldKey x) s = .next s) ∧
    (∀ k, s.aks = .captured k → ∃ t, exec (.ldKey x) s = .next t ∧ (t.reg x).toNat = k.toNat ∧ t.aks = .idle ∧
      t.pc = s.pc + 2 ∧ t = { s with pc := t.pc, v := t.v, aks := t.aks } ∧ SameRegsOutside [x] s t ∧ SameBytes s t)

/-- R173, R174, R175: FX07 reads DT, FX15 writes DT, FX18 writes ST, and nothing else changes. Which of the three does what is
from general knowledge (G3, R177, log 26). -/
def Obligations.TimerAccess : Prop :=
  ∀ (s : State) (x : Nibble),
    (∃ t, exec (.ldFromDt x) s = .next t ∧ t.reg x = s.dt ∧ t.pc = s.pc + 2 ∧ OnlyRegs [x] s t) ∧
    (∃ t, exec (.ldToDt x) s = .next t ∧ t = { s with pc := s.pc + 2, dt := s.reg x } ∧ SameRegsOutside [] s t ∧ SameBytes s t) ∧
    (∃ t, exec (.ldToSt x) s = .next t ∧ t = { s with pc := s.pc + 2, st := s.reg x } ∧ SameRegsOutside [] s t ∧ SameBytes s t)

/-! ### The other agents (60_exceptions.md) -/

/-- R210, R211: a key-down sets its key and is captured only while awaiting; a key-up clears its key and leaves `aks`. That a
repeat captures too is the spec's decision D17 (log 23). -/
def Obligations.KeyEventsChangeOnlyTheKeypad : Prop :=
  ∀ (s : State) (k : Nibble),
    (∀ j, (keyPressed k s).keyDown j = (if j = k then true else s.keyDown j)) ∧
    (keyPressed k s).aks = (if s.aks = .awaitingPress then .captured k else s.aks) ∧
    keyPressed k s = { s with keys := (keyPressed k s).keys, aks := (keyPressed k s).aks } ∧
    (∀ j, (keyReleased k s).keyDown j = (if j = k then false else s.keyDown j)) ∧
    keyReleased k s = { s with keys := (keyReleased k s).keys }

/-- R28, R215: the tick takes each timer down by one and stops at 0, and touches nothing else. -/
def Obligations.TickCountsDownToZero : Prop :=
  ∀ s : State, (tick s).dt.toNat = s.dt.toNat - 1 ∧ (tick s).st.toNat = s.st.toNat - 1 ∧
    tick s = { s with dt := (tick s).dt, st := (tick s).st }

/-- R221, R223, R225, R226: a poll is, in this order, one executor invocation if the instruction gate is due and none otherwise;
one tick if the timer gate is due and none otherwise; one present event with the framebuffer as it then is if the display is
decoupled and its gate is due, and none otherwise. A gate's timestamp is then `now` exactly if it fired; nothing else changes.
The snapshot is the 256 display bytes. The exact comparison is the spec's decision D14 and the order D12 (log 18), the display
gate only when decoupled D25 (log 22), the snapshot D26 (log 10). -/
def Obligations.PollFiresEachDueGateOnce : Prop :=
  ∀ (now : Nat) (s t : State), poll now s = .next t →
    t.gates.insn = (if (now - s.gates.insn) * s.cfg.instructionsPerSecond ≥ s.cfg.ticksPerSecond then now else s.gates.insn) ∧
    t.gates.timer = (if (now - s.gates.timer) * s.cfg.timerFrequency ≥ s.cfg.ticksPerSecond then now else s.gates.timer) ∧
    t.gates.disp = (if s.cfg.decoupleDisplay = true ∧ (now - s.gates.disp) * s.cfg.frameRate ≥ s.cfg.ticksPerSecond
      then now else s.gates.disp) ∧
    ∃ u, (if (now - s.gates.insn) * s.cfg.instructionsPerSecond ≥ s.cfg.ticksPerSecond then execute s = .next u else u = s) ∧
      t.dt.toNat = (if (now - s.gates.timer) * s.cfg.timerFrequency ≥ s.cfg.ticksPerSecond
        then u.dt.toNat - 1 else u.dt.toNat) ∧
      t.st.toNat = (if (now - s.gates.timer) * s.cfg.timerFrequency ≥ s.cfg.ticksPerSecond
        then u.st.toNat - 1 else u.st.toNat) ∧
      t.io.out = (if s.cfg.decoupleDisplay = true ∧ (now - s.gates.disp) * s.cfg.frameRate ≥ s.cfg.ticksPerSecond
        then u.io.out ++ [.present u.framebuffer] else u.io.out) ∧
      t = { u with dt := t.dt, st := t.st, gates := t.gates, io := { u.io with out := t.io.out } } ∧
      u.framebuffer.length = 256 ∧ ∀ j, j < 256 → u.framebuffer[j]? = some (u.byteAt (u.cfg.displayBase + j))

/-- R212, R221, R223, R225, R227, R235: an iteration applies its key events in order, then, against its sample of `now`, runs
one executor invocation if the instruction gate is due, and then what is left of it: one tick if the timer gate is due, one
present if the display is decoupled and its gate is due, and the test of `quit` (State.restOfIteration). It ends in the
executor's fault if the invocation faults. Whether each gate is due depends on its own timestamp at the start alone. The exact
comparison is the spec's decision D14 and the order D12 (log 18), the display gate only when decoupled D25 (log 22). -/
def Obligations.IterationDrainsThenPolls : Prop :=
  ∀ (s u : State) (events : List KeyEvent) (now : Nat) (quit : Bool), s.io.now ≤ now →
    u = (events.foldl (fun v e => keyEvent e v) s).sampleNow now →
    ((now - s.gates.insn) * s.cfg.instructionsPerSecond < s.cfg.ticksPerSecond →
      iteration events now quit s = .next (s.restOfIteration now quit u)) ∧
    ((now - s.gates.insn) * s.cfg.instructionsPerSecond ≥ s.cfg.ticksPerSecond →
      (∀ v, execute u = .next v → iteration events now quit s = .next (s.restOfIteration now quit (v.setLfInsn now))) ∧
      (∀ f, execute u = .fault f → iteration events now quit s = .fault f))

/-- R223 (consequence named there): in one poll FX15's write comes first and the tick then decrements the new value. The order
of the gates is the spec's decision D12 (log 18). That FX15 writes DT is from general knowledge (G3, R177, log 26). -/
def Obligations.TickSeesTheTimerJustWritten : Prop :=
  ∀ (s : State) (x : Nibble) (now : Nat), fetch s = .ok (encode (.ldToDt x)) →
    (now - s.gates.insn) * s.cfg.instructionsPerSecond ≥ s.cfg.ticksPerSecond →
    (now - s.gates.timer) * s.cfg.timerFrequency ≥ s.cfg.ticksPerSecond →
    ∃ t, poll now s = .next t ∧ t.dt.toNat = (s.reg x).toNat - 1

/-- R235: an iteration with `quit` drains its events and polls in full: it is the same iteration without `quit`, whose end it
follows by stopping the loop, and where that one faults or is refused so does it. Once `stopped`, a step changes nothing;
stopping changes nothing else. That a stopped machine's step leaves it as it is is the model's form of R235 (log 11). -/
def Obligations.QuitEndsTheLoop : Prop :=
  (∀ (s t : State) (events : List KeyEvent) (now : Nat), iteration events now false s = .next t →
    iteration events now true s = .next { t with io := { t.io with stopped := true } }) ∧
  (∀ (s t : State) (events : List KeyEvent) (now : Nat), iteration events now true s = .next t →
    t.io.stopped = true ∧ ∃ v, iteration events now false s = .next v ∧ t = stopLoop v) ∧
  (∀ (s : State) (events : List KeyEvent) (now : Nat) (f : Fault),
    iteration events now false s = .fault f ↔ iteration events now true s = .fault f) ∧
  (∀ (s : State) (events : List KeyEvent) (now : Nat) (r : Refusal),
    iteration events now false s = .refused r ↔ iteration events now true s = .refused r) ∧
  (∀ s : State, s.io.stopped = true → step s = .next s)

/-- The model's choice (log 12; R220, R232 give no step for it): a sample of `now` below an earlier one is refused. -/
def Obligations.ClockRunningBackwardsIsRefused : Prop :=
  ∀ (s : State) (events : List KeyEvent) (now : Nat) (quit : Bool) (rest : List Turn),
    s.io.stopped = false → s.io.turns = .iteration events now quit :: rest → now < s.io.now →
    step s = .refused (.clockRanBackwards s.io.now now)

/-! ### Invariants and rules over all instructions -/

/-- Every step keeps the invariant: an admitted configuration (R8, R9), canonical memory (R36), gates not ahead of `now` (R221).
Refusing a clock that runs backwards is the model's choice (log 12). -/
def Obligations.StepKeepsInvariant : Prop :=
  ∀ s t : State, s.Inv → step s = .next t → t.Inv

/-- R176: `aks` is other than Idle only while `pc` points at an FX0A instruction; every step keeps this. R176 is the spec's own
inference from R172, R210 and R211. -/
def Obligations.StepKeepsAwaitingAtKeyInstruction : Prop :=
  ∀ s t : State, s.AwaitsAtKeyInstr → step s = .next t → t.AwaitsAtKeyInstr

/-- R9, R38: no step changes the configuration. That options are constant is the spec's decision D33 (log 19). -/
def Obligations.StepKeepsConfiguration : Prop :=
  ∀ s t : State, step s = .next t → t.cfg = s.cfg

/-- R40, R201: the output events are append-only: every step keeps the log as it was and at most adds to its end. Keeping the
events in State is the model's choice (log 10). -/
def Obligations.StepOnlyAppendsOutput : Prop :=
  ∀ s t : State, step s = .next t → s.io.out <+: t.io.out

/-- The invariant holds after reset, and of every admitted configuration and program (R43, R260). What a load admits is the
spec's decision D23 (log 19). -/
def Obligations.BootMeetsInvariant : Prop :=
  State.reset.Inv ∧ State.reset.AwaitsAtKeyInstr ∧
  ∀ (cfg : Config) (program : List Byte) (s : State), boot cfg program = .ok s →
    s.Inv ∧ s.AwaitsAtKeyInstr ∧ s.pc.toNat = cfg.programBase

/-- R43, R260: after a load byte j of the program is at PROGRAM_BASE + j, and every other byte is the font's or zero. What a
load admits is the spec's decision D23 (log 19), the zeros D7 (log 5). -/
def Obligations.BootPlacesFontAndProgram : Prop :=
  ∀ (cfg : Config) (program : List Byte) (s : State), boot cfg program = .ok s →
    (∀ (j : Nat) (h : j < program.length), s.byteAt (cfg.programBase + j) = program[j]) ∧
    (∀ (j : Nat) (h : j < 80), s.byteAt (cfg.fontBase + j) = cfg.font[j]) ∧
    (∀ a, ¬ (cfg.programBase ≤ a ∧ a < cfg.programBase + program.length) →
      ¬ (cfg.fontBase ≤ a ∧ a < cfg.fontBase + 80) → s.byteAt a = 0)

/-- R42: what reset leaves, for the values the rule calls the source's: `pc` at PROGRAM_BASE and `aks` Idle; and, the spec's own
decision D7 (logs 4 and 5), zeros in the registers, timers and display, an empty stack and no key down. -/
def Obligations.ResetValues : Prop :=
  State.reset.pc.toNat = Config.standard.programBase ∧ State.reset.aks = .idle ∧ (∀ x, State.reset.reg x = 0) ∧
  State.reset.i = 0 ∧ State.reset.dt = 0 ∧ State.reset.st = 0 ∧ State.reset.sp = 0 ∧ (∀ k, State.reset.keyDown k = false) ∧
  State.reset.mem = []

/-- R56, R62: only 00E0, DXYN, FX33 and FX55 write memory. -/
def Obligations.OnlyFourInstructionsWriteMemory : Prop :=
  ∀ (i : Instr) (s t : State), exec i s = .next t →
    i ≠ .cls → (∀ x y n, i ≠ .drw x y n) → (∀ x, i ≠ .ldDigits x) → (∀ x, i ≠ .storeRegs x) → t.mem = s.mem

/-- R26, R27, R30, R33, R34: no instruction but FX15 writes DT, none but FX18 writes ST, none but 2NNN and 00EE touches the call
stack, none but FX0A writes `aks`, and none writes `keys` or a gate. That nothing else reaches the stack is D27 (log 27). That
FX15 is the one for DT and FX18 the one for ST is from general knowledge (G3, R177, log 26). -/
def Obligations.WritersOfTimersStackAndKeypad : Prop :=
  ∀ (i : Instr) (s t : State), exec i s = .next t →
    ((∀ x, i ≠ .ldToDt x) → t.dt = s.dt) ∧ ((∀ x, i ≠ .ldToSt x) → t.st = s.st) ∧
    (i ≠ .ret → (∀ a, i ≠ .call a) → t.sp = s.sp ∧ t.stack = s.stack) ∧
    ((∀ x, i ≠ .ldKey x) → t.aks = s.aks) ∧ t.keys = s.keys ∧ t.gates = s.gates

/-- R23: `I` is written by no instruction but ANNN, FX1E, FX29, and FX55 and FX65 under the index quirk. -/
def Obligations.WritersOfIndex : Prop :=
  ∀ (i : Instr) (s t : State), exec i s = .next t →
    (∀ a, i ≠ .ldI a) → (∀ x, i ≠ .addI x) → (∀ x, i ≠ .ldGlyph x) →
    (s.cfg.loadStoreAdvancesIndex = true → (∀ x, i ≠ .storeRegs x) ∧ (∀ x, i ≠ .loadRegs x)) → t.i = s.i

/-- R203: `exec` refuses no instruction in any state, DXYN, FX33, FX55 and FX65 included, and under an admitted configuration
every instruction but these four answers a next state, so only they can fault. The fault is the spec's decision D6 (log 7). -/
def Obligations.OnlyDataAccessesFault : Prop :=
  (∀ (i : Instr) (s : State) (r : Refusal), exec i s ≠ .refused r) ∧
  ∀ (i : Instr) (s : State), s.cfg.wf = true → (∀ x y n, i ≠ .drw x y n) → (∀ x, i ≠ .ldDigits x) →
    (∀ x, i ≠ .storeRegs x) → (∀ x, i ≠ .loadRegs x) → ∃ t, exec i s = .next t

/-- R202: an instruction emits at most one diagnostic, and only 2NNN on a full stack, 00EE on an empty one, and EX9E and EXA1
with V[X] above 15 emit one. -/
def Obligations.DiagnosticsOnlyWhereListed : Prop :=
  ∀ (i : Instr) (s t : State), exec i s = .next t →
    t.diags = s.diags +
      (if ((∃ a, i = .call a) ∧ s.sp.val = 16) ∨ (i = .ret ∧ s.sp.val = 0) ∨
        (∃ x, (i = .skp x ∨ i = .sknp x) ∧ (s.reg x).toNat > 15) then 1 else 0)

/-- R268: from a parked state an executor invocation leaves all state unchanged. The notion of a parked state is the spec's
decision D22 (log 27). -/
def Obligations.ParkedStaysParked : Prop :=
  ∀ s : State, s.Parked → execute s = .next s
end

