-- ==== Sys2Proof/Laws/State.lean ====
section
/-! SUPPORT. What each update of the state does to each field, one lemma per field per update, and how the readers of one
register, key or byte see an update. -/

namespace Sys2Proof.Machine

variable (s : State)

/-! ### setReg -/

@[simp] theorem State.setReg_cfg (x : Nibble) (b : Byte) : (s.setReg x b).cfg = s.cfg := rfl
@[simp] theorem State.setReg_mem (x : Nibble) (b : Byte) : (s.setReg x b).mem = s.mem := rfl
@[simp] theorem State.setReg_v (x : Nibble) (b : Byte) : (s.setReg x b).v = s.v.set x.toNat b x.isLt := rfl
@[simp] theorem State.setReg_i (x : Nibble) (b : Byte) : (s.setReg x b).i = s.i := rfl
@[simp] theorem State.setReg_pc (x : Nibble) (b : Byte) : (s.setReg x b).pc = s.pc := rfl
@[simp] theorem State.setReg_dt (x : Nibble) (b : Byte) : (s.setReg x b).dt = s.dt := rfl
@[simp] theorem State.setReg_st (x : Nibble) (b : Byte) : (s.setReg x b).st = s.st := rfl
@[simp] theorem State.setReg_stack (x : Nibble) (b : Byte) : (s.setReg x b).stack = s.stack := rfl
@[simp] theorem State.setReg_sp (x : Nibble) (b : Byte) : (s.setReg x b).sp = s.sp := rfl
@[simp] theorem State.setReg_keys (x : Nibble) (b : Byte) : (s.setReg x b).keys = s.keys := rfl
@[simp] theorem State.setReg_aks (x : Nibble) (b : Byte) : (s.setReg x b).aks = s.aks := rfl
@[simp] theorem State.setReg_gates (x : Nibble) (b : Byte) : (s.setReg x b).gates = s.gates := rfl
@[simp] theorem State.setReg_io (x : Nibble) (b : Byte) : (s.setReg x b).io = s.io := rfl
@[simp] theorem State.setReg_byteAt (x : Nibble) (b : Byte) (a : Nat) : (s.setReg x b).byteAt a = s.byteAt a := rfl

/-! ### setIndex -/

@[simp] theorem State.setIndex_cfg (w : Word) : (s.setIndex w).cfg = s.cfg := rfl
@[simp] theorem State.setIndex_mem (w : Word) : (s.setIndex w).mem = s.mem := rfl
@[simp] theorem State.setIndex_v (w : Word) : (s.setIndex w).v = s.v := rfl
@[simp] theorem State.setIndex_i (w : Word) : (s.setIndex w).i = w := rfl
@[simp] theorem State.setIndex_pc (w : Word) : (s.setIndex w).pc = s.pc := rfl
@[simp] theorem State.setIndex_dt (w : Word) : (s.setIndex w).dt = s.dt := rfl
@[simp] theorem State.setIndex_st (w : Word) : (s.setIndex w).st = s.st := rfl
@[simp] theorem State.setIndex_stack (w : Word) : (s.setIndex w).stack = s.stack := rfl
@[simp] theorem State.setIndex_sp (w : Word) : (s.setIndex w).sp = s.sp := rfl
@[simp] theorem State.setIndex_keys (w : Word) : (s.setIndex w).keys = s.keys := rfl
@[simp] theorem State.setIndex_aks (w : Word) : (s.setIndex w).aks = s.aks := rfl
@[simp] theorem State.setIndex_gates (w : Word) : (s.setIndex w).gates = s.gates := rfl
@[simp] theorem State.setIndex_io (w : Word) : (s.setIndex w).io = s.io := rfl
@[simp] theorem State.setIndex_byteAt (w : Word) (a : Nat) : (s.setIndex w).byteAt a = s.byteAt a := rfl
@[simp] theorem State.setIndex_reg (w : Word) (z : Nibble) : (s.setIndex w).reg z = s.reg z := rfl

/-! ### setPc -/

@[simp] theorem State.setPc_cfg (w : Word) : (s.setPc w).cfg = s.cfg := rfl
@[simp] theorem State.setPc_mem (w : Word) : (s.setPc w).mem = s.mem := rfl
@[simp] theorem State.setPc_v (w : Word) : (s.setPc w).v = s.v := rfl
@[simp] theorem State.setPc_i (w : Word) : (s.setPc w).i = s.i := rfl
@[simp] theorem State.setPc_pc (w : Word) : (s.setPc w).pc = w := rfl
@[simp] theorem State.setPc_dt (w : Word) : (s.setPc w).dt = s.dt := rfl
@[simp] theorem State.setPc_st (w : Word) : (s.setPc w).st = s.st := rfl
@[simp] theorem State.setPc_stack (w : Word) : (s.setPc w).stack = s.stack := rfl
@[simp] theorem State.setPc_sp (w : Word) : (s.setPc w).sp = s.sp := rfl
@[simp] theorem State.setPc_keys (w : Word) : (s.setPc w).keys = s.keys := rfl
@[simp] theorem State.setPc_aks (w : Word) : (s.setPc w).aks = s.aks := rfl
@[simp] theorem State.setPc_gates (w : Word) : (s.setPc w).gates = s.gates := rfl
@[simp] theorem State.setPc_io (w : Word) : (s.setPc w).io = s.io := rfl
@[simp] theorem State.setPc_byteAt (w : Word) (a : Nat) : (s.setPc w).byteAt a = s.byteAt a := rfl
@[simp] theorem State.setPc_reg (w : Word) (z : Nibble) : (s.setPc w).reg z = s.reg z := rfl

/-! ### setDt -/

@[simp] theorem State.setDt_cfg (b : Byte) : (s.setDt b).cfg = s.cfg := rfl
@[simp] theorem State.setDt_mem (b : Byte) : (s.setDt b).mem = s.mem := rfl
@[simp] theorem State.setDt_v (b : Byte) : (s.setDt b).v = s.v := rfl
@[simp] theorem State.setDt_i (b : Byte) : (s.setDt b).i = s.i := rfl
@[simp] theorem State.setDt_pc (b : Byte) : (s.setDt b).pc = s.pc := rfl
@[simp] theorem State.setDt_dt (b : Byte) : (s.setDt b).dt = b := rfl
@[simp] theorem State.setDt_st (b : Byte) : (s.setDt b).st = s.st := rfl
@[simp] theorem State.setDt_stack (b : Byte) : (s.setDt b).stack = s.stack := rfl
@[simp] theorem State.setDt_sp (b : Byte) : (s.setDt b).sp = s.sp := rfl
@[simp] theorem State.setDt_keys (b : Byte) : (s.setDt b).keys = s.keys := rfl
@[simp] theorem State.setDt_aks (b : Byte) : (s.setDt b).aks = s.aks := rfl
@[simp] theorem State.setDt_gates (b : Byte) : (s.setDt b).gates = s.gates := rfl
@[simp] theorem State.setDt_io (b : Byte) : (s.setDt b).io = s.io := rfl
@[simp] theorem State.setDt_byteAt (b : Byte) (a : Nat) : (s.setDt b).byteAt a = s.byteAt a := rfl
@[simp] theorem State.setDt_reg (b : Byte) (z : Nibble) : (s.setDt b).reg z = s.reg z := rfl

/-! ### setSt -/

@[simp] theorem State.setSt_cfg (b : Byte) : (s.setSt b).cfg = s.cfg := rfl
@[simp] theorem State.setSt_mem (b : Byte) : (s.setSt b).mem = s.mem := rfl
@[simp] theorem State.setSt_v (b : Byte) : (s.setSt b).v = s.v := rfl
@[simp] theorem State.setSt_i (b : Byte) : (s.setSt b).i = s.i := rfl
@[simp] theorem State.setSt_pc (b : Byte) : (s.setSt b).pc = s.pc := rfl
@[simp] theorem State.setSt_dt (b : Byte) : (s.setSt b).dt = s.dt := rfl
@[simp] theorem State.setSt_st (b : Byte) : (s.setSt b).st = b := rfl
@[simp] theorem State.setSt_stack (b : Byte) : (s.setSt b).stack = s.stack := rfl
@[simp] theorem State.setSt_sp (b : Byte) : (s.setSt b).sp = s.sp := rfl
@[simp] theorem State.setSt_keys (b : Byte) : (s.setSt b).keys = s.keys := rfl
@[simp] theorem State.setSt_aks (b : Byte) : (s.setSt b).aks = s.aks := rfl
@[simp] theorem State.setSt_gates (b : Byte) : (s.setSt b).gates = s.gates := rfl
@[simp] theorem State.setSt_io (b : Byte) : (s.setSt b).io = s.io := rfl
@[simp] theorem State.setSt_byteAt (b : Byte) (a : Nat) : (s.setSt b).byteAt a = s.byteAt a := rfl
@[simp] theorem State.setSt_reg (b : Byte) (z : Nibble) : (s.setSt b).reg z = s.reg z := rfl

/-! ### advance -/

@[simp] theorem State.advance_cfg : (s.advance).cfg = s.cfg := rfl
@[simp] theorem State.advance_mem : (s.advance).mem = s.mem := rfl
@[simp] theorem State.advance_v : (s.advance).v = s.v := rfl
@[simp] theorem State.advance_i : (s.advance).i = s.i := rfl
@[simp] theorem State.advance_pc : (s.advance).pc = s.pc + 2 := rfl
@[simp] theorem State.advance_dt : (s.advance).dt = s.dt := rfl
@[simp] theorem State.advance_st : (s.advance).st = s.st := rfl
@[simp] theorem State.advance_stack : (s.advance).stack = s.stack := rfl
@[simp] theorem State.advance_sp : (s.advance).sp = s.sp := rfl
@[simp] theorem State.advance_keys : (s.advance).keys = s.keys := rfl
@[simp] theorem State.advance_aks : (s.advance).aks = s.aks := rfl
@[simp] theorem State.advance_gates : (s.advance).gates = s.gates := rfl
@[simp] theorem State.advance_io : (s.advance).io = s.io := rfl
@[simp] theorem State.advance_byteAt (a : Nat) : (s.advance).byteAt a = s.byteAt a := rfl
@[simp] theorem State.advance_reg (z : Nibble) : (s.advance).reg z = s.reg z := rfl

/-! ### rewind -/

@[simp] theorem State.rewind_cfg : (s.rewind).cfg = s.cfg := rfl
@[simp] theorem State.rewind_mem : (s.rewind).mem = s.mem := rfl
@[simp] theorem State.rewind_v : (s.rewind).v = s.v := rfl
@[simp] theorem State.rewind_i : (s.rewind).i = s.i := rfl
@[simp] theorem State.rewind_pc : (s.rewind).pc = s.pc - 2 := rfl
@[simp] theorem State.rewind_dt : (s.rewind).dt = s.dt := rfl
@[simp] theorem State.rewind_st : (s.rewind).st = s.st := rfl
@[simp] theorem State.rewind_stack : (s.rewind).stack = s.stack := rfl
@[simp] theorem State.rewind_sp : (s.rewind).sp = s.sp := rfl
@[simp] theorem State.rewind_keys : (s.rewind).keys = s.keys := rfl
@[simp] theorem State.rewind_aks : (s.rewind).aks = s.aks := rfl
@[simp] theorem State.rewind_gates : (s.rewind).gates = s.gates := rfl
@[simp] theorem State.rewind_io : (s.rewind).io = s.io := rfl
@[simp] theorem State.rewind_byteAt (a : Nat) : (s.rewind).byteAt a = s.byteAt a := rfl
@[simp] theorem State.rewind_reg (z : Nibble) : (s.rewind).reg z = s.reg z := rfl

/-! ### setKey -/

@[simp] theorem State.setKey_cfg (k : Nibble) (b : Bool) : (s.setKey k b).cfg = s.cfg := rfl
@[simp] theorem State.setKey_mem (k : Nibble) (b : Bool) : (s.setKey k b).mem = s.mem := rfl
@[simp] theorem State.setKey_v (k : Nibble) (b : Bool) : (s.setKey k b).v = s.v := rfl
@[simp] theorem State.setKey_i (k : Nibble) (b : Bool) : (s.setKey k b).i = s.i := rfl
@[simp] theorem State.setKey_pc (k : Nibble) (b : Bool) : (s.setKey k b).pc = s.pc := rfl
@[simp] theorem State.setKey_dt (k : Nibble) (b : Bool) : (s.setKey k b).dt = s.dt := rfl
@[simp] theorem State.setKey_st (k : Nibble) (b : Bool) : (s.setKey k b).st = s.st := rfl
@[simp] theorem State.setKey_stack (k : Nibble) (b : Bool) : (s.setKey k b).stack = s.stack := rfl
@[simp] theorem State.setKey_sp (k : Nibble) (b : Bool) : (s.setKey k b).sp = s.sp := rfl
@[simp] theorem State.setKey_keys (k : Nibble) (b : Bool) : (s.setKey k b).keys = s.keys.set k.toNat b k.isLt := rfl
@[simp] theorem State.setKey_aks (k : Nibble) (b : Bool) : (s.setKey k b).aks = s.aks := rfl
@[simp] theorem State.setKey_gates (k : Nibble) (b : Bool) : (s.setKey k b).gates = s.gates := rfl
@[simp] theorem State.setKey_io (k : Nibble) (b : Bool) : (s.setKey k b).io = s.io := rfl
@[simp] theorem State.setKey_byteAt (k : Nibble) (b : Bool) (a : Nat) : (s.setKey k b).byteAt a = s.byteAt a := rfl
@[simp] theorem State.setKey_reg (k : Nibble) (b : Bool) (z : Nibble) : (s.setKey k b).reg z = s.reg z := rfl

/-! ### setAks -/

@[simp] theorem State.setAks_cfg (k : AwaitKey) : (s.setAks k).cfg = s.cfg := rfl
@[simp] theorem State.setAks_mem (k : AwaitKey) : (s.setAks k).mem = s.mem := rfl
@[simp] theorem State.setAks_v (k : AwaitKey) : (s.setAks k).v = s.v := rfl
@[simp] theorem State.setAks_i (k : AwaitKey) : (s.setAks k).i = s.i := rfl
@[simp] theorem State.setAks_pc (k : AwaitKey) : (s.setAks k).pc = s.pc := rfl
@[simp] theorem State.setAks_dt (k : AwaitKey) : (s.setAks k).dt = s.dt := rfl
@[simp] theorem State.setAks_st (k : AwaitKey) : (s.setAks k).st = s.st := rfl
@[simp] theorem State.setAks_stack (k : AwaitKey) : (s.setAks k).stack = s.stack := rfl
@[simp] theorem State.setAks_sp (k : AwaitKey) : (s.setAks k).sp = s.sp := rfl
@[simp] theorem State.setAks_keys (k : AwaitKey) : (s.setAks k).keys = s.keys := rfl
@[simp] theorem State.setAks_aks (k : AwaitKey) : (s.setAks k).aks = k := rfl
@[simp] theorem State.setAks_gates (k : AwaitKey) : (s.setAks k).gates = s.gates := rfl
@[simp] theorem State.setAks_io (k : AwaitKey) : (s.setAks k).io = s.io := rfl
@[simp] theorem State.setAks_byteAt (k : AwaitKey) (a : Nat) : (s.setAks k).byteAt a = s.byteAt a := rfl
@[simp] theorem State.setAks_reg (k : AwaitKey) (z : Nibble) : (s.setAks k).reg z = s.reg z := rfl

/-! ### setFlag -/

@[simp] theorem State.setFlag_cfg (b : Bool) : (s.setFlag b).cfg = s.cfg := rfl
@[simp] theorem State.setFlag_mem (b : Bool) : (s.setFlag b).mem = s.mem := rfl
@[simp] theorem State.setFlag_v (b : Bool) : (s.setFlag b).v = s.v.set vf.toNat (flagByte b) vf.isLt := rfl
@[simp] theorem State.setFlag_i (b : Bool) : (s.setFlag b).i = s.i := rfl
@[simp] theorem State.setFlag_pc (b : Bool) : (s.setFlag b).pc = s.pc := rfl
@[simp] theorem State.setFlag_dt (b : Bool) : (s.setFlag b).dt = s.dt := rfl
@[simp] theorem State.setFlag_st (b : Bool) : (s.setFlag b).st = s.st := rfl
@[simp] theorem State.setFlag_stack (b : Bool) : (s.setFlag b).stack = s.stack := rfl
@[simp] theorem State.setFlag_sp (b : Bool) : (s.setFlag b).sp = s.sp := rfl
@[simp] theorem State.setFlag_keys (b : Bool) : (s.setFlag b).keys = s.keys := rfl
@[simp] theorem State.setFlag_aks (b : Bool) : (s.setFlag b).aks = s.aks := rfl
@[simp] theorem State.setFlag_gates (b : Bool) : (s.setFlag b).gates = s.gates := rfl
@[simp] theorem State.setFlag_io (b : Bool) : (s.setFlag b).io = s.io := rfl
@[simp] theorem State.setFlag_byteAt (b : Bool) (a : Nat) : (s.setFlag b).byteAt a = s.byteAt a := rfl

/-! ### rndTaken -/

@[simp] theorem State.rndTaken_cfg : (s.rndTaken).cfg = s.cfg := rfl
@[simp] theorem State.rndTaken_mem : (s.rndTaken).mem = s.mem := rfl
@[simp] theorem State.rndTaken_v : (s.rndTaken).v = s.v := rfl
@[simp] theorem State.rndTaken_i : (s.rndTaken).i = s.i := rfl
@[simp] theorem State.rndTaken_pc : (s.rndTaken).pc = s.pc := rfl
@[simp] theorem State.rndTaken_dt : (s.rndTaken).dt = s.dt := rfl
@[simp] theorem State.rndTaken_st : (s.rndTaken).st = s.st := rfl
@[simp] theorem State.rndTaken_stack : (s.rndTaken).stack = s.stack := rfl
@[simp] theorem State.rndTaken_sp : (s.rndTaken).sp = s.sp := rfl
@[simp] theorem State.rndTaken_keys : (s.rndTaken).keys = s.keys := rfl
@[simp] theorem State.rndTaken_aks : (s.rndTaken).aks = s.aks := rfl
@[simp] theorem State.rndTaken_gates : (s.rndTaken).gates = s.gates := rfl
@[simp] theorem State.rndTaken_io : (s.rndTaken).io = { s.io with rndIn := s.io.rndIn.tail, draws := s.io.draws + 1 } := rfl
@[simp] theorem State.rndTaken_byteAt (a : Nat) : (s.rndTaken).byteAt a = s.byteAt a := rfl
@[simp] theorem State.rndTaken_reg (z : Nibble) : (s.rndTaken).reg z = s.reg z := rfl

/-! ### emit -/

@[simp] theorem State.emit_cfg (o : Output) : (s.emit o).cfg = s.cfg := rfl
@[simp] theorem State.emit_mem (o : Output) : (s.emit o).mem = s.mem := rfl
@[simp] theorem State.emit_v (o : Output) : (s.emit o).v = s.v := rfl
@[simp] theorem State.emit_i (o : Output) : (s.emit o).i = s.i := rfl
@[simp] theorem State.emit_pc (o : Output) : (s.emit o).pc = s.pc := rfl
@[simp] theorem State.emit_dt (o : Output) : (s.emit o).dt = s.dt := rfl
@[simp] theorem State.emit_st (o : Output) : (s.emit o).st = s.st := rfl
@[simp] theorem State.emit_stack (o : Output) : (s.emit o).stack = s.stack := rfl
@[simp] theorem State.emit_sp (o : Output) : (s.emit o).sp = s.sp := rfl
@[simp] theorem State.emit_keys (o : Output) : (s.emit o).keys = s.keys := rfl
@[simp] theorem State.emit_aks (o : Output) : (s.emit o).aks = s.aks := rfl
@[simp] theorem State.emit_gates (o : Output) : (s.emit o).gates = s.gates := rfl
@[simp] theorem State.emit_io (o : Output) : (s.emit o).io = { s.io with out := s.io.out ++ [o] } := rfl
@[simp] theorem State.emit_byteAt (o : Output) (a : Nat) : (s.emit o).byteAt a = s.byteAt a := rfl
@[simp] theorem State.emit_reg (o : Output) (z : Nibble) : (s.emit o).reg z = s.reg z := rfl

/-! ### setLfInsn -/

@[simp] theorem State.setLfInsn_cfg (n : Nat) : (s.setLfInsn n).cfg = s.cfg := rfl
@[simp] theorem State.setLfInsn_mem (n : Nat) : (s.setLfInsn n).mem = s.mem := rfl
@[simp] theorem State.setLfInsn_v (n : Nat) : (s.setLfInsn n).v = s.v := rfl
@[simp] theorem State.setLfInsn_i (n : Nat) : (s.setLfInsn n).i = s.i := rfl
@[simp] theorem State.setLfInsn_pc (n : Nat) : (s.setLfInsn n).pc = s.pc := rfl
@[simp] theorem State.setLfInsn_dt (n : Nat) : (s.setLfInsn n).dt = s.dt := rfl
@[simp] theorem State.setLfInsn_st (n : Nat) : (s.setLfInsn n).st = s.st := rfl
@[simp] theorem State.setLfInsn_stack (n : Nat) : (s.setLfInsn n).stack = s.stack := rfl
@[simp] theorem State.setLfInsn_sp (n : Nat) : (s.setLfInsn n).sp = s.sp := rfl
@[simp] theorem State.setLfInsn_keys (n : Nat) : (s.setLfInsn n).keys = s.keys := rfl
@[simp] theorem State.setLfInsn_aks (n : Nat) : (s.setLfInsn n).aks = s.aks := rfl
@[simp] theorem State.setLfInsn_gates (n : Nat) : (s.setLfInsn n).gates = { s.gates with insn := n } := rfl
@[simp] theorem State.setLfInsn_io (n : Nat) : (s.setLfInsn n).io = s.io := rfl
@[simp] theorem State.setLfInsn_byteAt (n : Nat) (a : Nat) : (s.setLfInsn n).byteAt a = s.byteAt a := rfl
@[simp] theorem State.setLfInsn_reg (n : Nat) (z : Nibble) : (s.setLfInsn n).reg z = s.reg z := rfl

/-! ### setLfTimer -/

@[simp] theorem State.setLfTimer_cfg (n : Nat) : (s.setLfTimer n).cfg = s.cfg := rfl
@[simp] theorem State.setLfTimer_mem (n : Nat) : (s.setLfTimer n).mem = s.mem := rfl
@[simp] theorem State.setLfTimer_v (n : Nat) : (s.setLfTimer n).v = s.v := rfl
@[simp] theorem State.setLfTimer_i (n : Nat) : (s.setLfTimer n).i = s.i := rfl
@[simp] theorem State.setLfTimer_pc (n : Nat) : (s.setLfTimer n).pc = s.pc := rfl
@[simp] theorem State.setLfTimer_dt (n : Nat) : (s.setLfTimer n).dt = s.dt := rfl
@[simp] theorem State.setLfTimer_st (n : Nat) : (s.setLfTimer n).st = s.st := rfl
@[simp] theorem State.setLfTimer_stack (n : Nat) : (s.setLfTimer n).stack = s.stack := rfl
@[simp] theorem State.setLfTimer_sp (n : Nat) : (s.setLfTimer n).sp = s.sp := rfl
@[simp] theorem State.setLfTimer_keys (n : Nat) : (s.setLfTimer n).keys = s.keys := rfl
@[simp] theorem State.setLfTimer_aks (n : Nat) : (s.setLfTimer n).aks = s.aks := rfl
@[simp] theorem State.setLfTimer_gates (n : Nat) : (s.setLfTimer n).gates = { s.gates with timer := n } := rfl
@[simp] theorem State.setLfTimer_io (n : Nat) : (s.setLfTimer n).io = s.io := rfl
@[simp] theorem State.setLfTimer_byteAt (n : Nat) (a : Nat) : (s.setLfTimer n).byteAt a = s.byteAt a := rfl
@[simp] theorem State.setLfTimer_reg (n : Nat) (z : Nibble) : (s.setLfTimer n).reg z = s.reg z := rfl

/-! ### setLfDisp -/

@[simp] theorem State.setLfDisp_cfg (n : Nat) : (s.setLfDisp n).cfg = s.cfg := rfl
@[simp] theorem State.setLfDisp_mem (n : Nat) : (s.setLfDisp n).mem = s.mem := rfl
@[simp] theorem State.setLfDisp_v (n : Nat) : (s.setLfDisp n).v = s.v := rfl
@[simp] theorem State.setLfDisp_i (n : Nat) : (s.setLfDisp n).i = s.i := rfl
@[simp] theorem State.setLfDisp_pc (n : Nat) : (s.setLfDisp n).pc = s.pc := rfl
@[simp] theorem State.setLfDisp_dt (n : Nat) : (s.setLfDisp n).dt = s.dt := rfl
@[simp] theorem State.setLfDisp_st (n : Nat) : (s.setLfDisp n).st = s.st := rfl
@[simp] theorem State.setLfDisp_stack (n : Nat) : (s.setLfDisp n).stack = s.stack := rfl
@[simp] theorem State.setLfDisp_sp (n : Nat) : (s.setLfDisp n).sp = s.sp := rfl
@[simp] theorem State.setLfDisp_keys (n : Nat) : (s.setLfDisp n).keys = s.keys := rfl
@[simp] theorem State.setLfDisp_aks (n : Nat) : (s.setLfDisp n).aks = s.aks := rfl
@[simp] theorem State.setLfDisp_gates (n : Nat) : (s.setLfDisp n).gates = { s.gates with disp := n } := rfl
@[simp] theorem State.setLfDisp_io (n : Nat) : (s.setLfDisp n).io = s.io := rfl
@[simp] theorem State.setLfDisp_byteAt (n : Nat) (a : Nat) : (s.setLfDisp n).byteAt a = s.byteAt a := rfl
@[simp] theorem State.setLfDisp_reg (n : Nat) (z : Nibble) : (s.setLfDisp n).reg z = s.reg z := rfl

/-! ### sampleNow -/

@[simp] theorem State.sampleNow_cfg (n : Nat) : (s.sampleNow n).cfg = s.cfg := rfl
@[simp] theorem State.sampleNow_mem (n : Nat) : (s.sampleNow n).mem = s.mem := rfl
@[simp] theorem State.sampleNow_v (n : Nat) : (s.sampleNow n).v = s.v := rfl
@[simp] theorem State.sampleNow_i (n : Nat) : (s.sampleNow n).i = s.i := rfl
@[simp] theorem State.sampleNow_pc (n : Nat) : (s.sampleNow n).pc = s.pc := rfl
@[simp] theorem State.sampleNow_dt (n : Nat) : (s.sampleNow n).dt = s.dt := rfl
@[simp] theorem State.sampleNow_st (n : Nat) : (s.sampleNow n).st = s.st := rfl
@[simp] theorem State.sampleNow_stack (n : Nat) : (s.sampleNow n).stack = s.stack := rfl
@[simp] theorem State.sampleNow_sp (n : Nat) : (s.sampleNow n).sp = s.sp := rfl
@[simp] theorem State.sampleNow_keys (n : Nat) : (s.sampleNow n).keys = s.keys := rfl
@[simp] theorem State.sampleNow_aks (n : Nat) : (s.sampleNow n).aks = s.aks := rfl
@[simp] theorem State.sampleNow_gates (n : Nat) : (s.sampleNow n).gates = s.gates := rfl
@[simp] theorem State.sampleNow_io (n : Nat) : (s.sampleNow n).io = { s.io with now := n } := rfl
@[simp] theorem State.sampleNow_byteAt (n : Nat) (a : Nat) : (s.sampleNow n).byteAt a = s.byteAt a := rfl
@[simp] theorem State.sampleNow_reg (n : Nat) (z : Nibble) : (s.sampleNow n).reg z = s.reg z := rfl

/-! ### setTurns -/

@[simp] theorem State.setTurns_cfg (ts : List Turn) : (s.setTurns ts).cfg = s.cfg := rfl
@[simp] theorem State.setTurns_mem (ts : List Turn) : (s.setTurns ts).mem = s.mem := rfl
@[simp] theorem State.setTurns_v (ts : List Turn) : (s.setTurns ts).v = s.v := rfl
@[simp] theorem State.setTurns_i (ts : List Turn) : (s.setTurns ts).i = s.i := rfl
@[simp] theorem State.setTurns_pc (ts : List Turn) : (s.setTurns ts).pc = s.pc := rfl
@[simp] theorem State.setTurns_dt (ts : List Turn) : (s.setTurns ts).dt = s.dt := rfl
@[simp] theorem State.setTurns_st (ts : List Turn) : (s.setTurns ts).st = s.st := rfl
@[simp] theorem State.setTurns_stack (ts : List Turn) : (s.setTurns ts).stack = s.stack := rfl
@[simp] theorem State.setTurns_sp (ts : List Turn) : (s.setTurns ts).sp = s.sp := rfl
@[simp] theorem State.setTurns_keys (ts : List Turn) : (s.setTurns ts).keys = s.keys := rfl
@[simp] theorem State.setTurns_aks (ts : List Turn) : (s.setTurns ts).aks = s.aks := rfl
@[simp] theorem State.setTurns_gates (ts : List Turn) : (s.setTurns ts).gates = s.gates := rfl
@[simp] theorem State.setTurns_io (ts : List Turn) : (s.setTurns ts).io = { s.io with turns := ts } := rfl
@[simp] theorem State.setTurns_byteAt (ts : List Turn) (a : Nat) : (s.setTurns ts).byteAt a = s.byteAt a := rfl
@[simp] theorem State.setTurns_reg (ts : List Turn) (z : Nibble) : (s.setTurns ts).reg z = s.reg z := rfl

/-! ### flagThenResult -/

@[simp] theorem State.flagThenResult_cfg (x : Nibble) (f : Bool) (r : Byte) : (s.flagThenResult x f r).cfg = s.cfg := rfl
@[simp] theorem State.flagThenResult_mem (x : Nibble) (f : Bool) (r : Byte) : (s.flagThenResult x f r).mem = s.mem := rfl
@[simp] theorem State.flagThenResult_i (x : Nibble) (f : Bool) (r : Byte) : (s.flagThenResult x f r).i = s.i := rfl
@[simp] theorem State.flagThenResult_pc (x : Nibble) (f : Bool) (r : Byte) : (s.flagThenResult x f r).pc = s.pc := rfl
@[simp] theorem State.flagThenResult_dt (x : Nibble) (f : Bool) (r : Byte) : (s.flagThenResult x f r).dt = s.dt := rfl
@[simp] theorem State.flagThenResult_st (x : Nibble) (f : Bool) (r : Byte) : (s.flagThenResult x f r).st = s.st := rfl
@[simp] theorem State.flagThenResult_stack (x : Nibble) (f : Bool) (r : Byte) : (s.flagThenResult x f r).stack = s.stack := rfl
@[simp] theorem State.flagThenResult_sp (x : Nibble) (f : Bool) (r : Byte) : (s.flagThenResult x f r).sp = s.sp := rfl
@[simp] theorem State.flagThenResult_keys (x : Nibble) (f : Bool) (r : Byte) : (s.flagThenResult x f r).keys = s.keys := rfl
@[simp] theorem State.flagThenResult_aks (x : Nibble) (f : Bool) (r : Byte) : (s.flagThenResult x f r).aks = s.aks := rfl
@[simp] theorem State.flagThenResult_gates (x : Nibble) (f : Bool) (r : Byte) : (s.flagThenResult x f r).gates = s.gates := rfl
@[simp] theorem State.flagThenResult_io (x : Nibble) (f : Bool) (r : Byte) : (s.flagThenResult x f r).io = s.io := rfl
@[simp] theorem State.flagThenResult_byteAt (x : Nibble) (f : Bool) (r : Byte) (a : Nat) :
    (s.flagThenResult x f r).byteAt a = s.byteAt a := rfl

/-! ### tick -/

@[simp] theorem tick_cfg : (tick s).cfg = s.cfg := rfl
@[simp] theorem tick_mem : (tick s).mem = s.mem := rfl
@[simp] theorem tick_v : (tick s).v = s.v := rfl
@[simp] theorem tick_i : (tick s).i = s.i := rfl
@[simp] theorem tick_pc : (tick s).pc = s.pc := rfl
@[simp] theorem tick_dt : (tick s).dt = countDown s.dt := rfl
@[simp] theorem tick_st : (tick s).st = countDown s.st := rfl
@[simp] theorem tick_stack : (tick s).stack = s.stack := rfl
@[simp] theorem tick_sp : (tick s).sp = s.sp := rfl
@[simp] theorem tick_keys : (tick s).keys = s.keys := rfl
@[simp] theorem tick_aks : (tick s).aks = s.aks := rfl
@[simp] theorem tick_gates : (tick s).gates = s.gates := rfl
@[simp] theorem tick_io : (tick s).io = s.io := rfl
@[simp] theorem tick_byteAt (a : Nat) : (tick s).byteAt a = s.byteAt a := rfl
@[simp] theorem tick_reg (z : Nibble) : (tick s).reg z = s.reg z := rfl

/-! ### present -/

@[simp] theorem present_cfg : (present s).cfg = s.cfg := rfl
@[simp] theorem present_mem : (present s).mem = s.mem := rfl
@[simp] theorem present_v : (present s).v = s.v := rfl
@[simp] theorem present_i : (present s).i = s.i := rfl
@[simp] theorem present_pc : (present s).pc = s.pc := rfl
@[simp] theorem present_dt : (present s).dt = s.dt := rfl
@[simp] theorem present_st : (present s).st = s.st := rfl
@[simp] theorem present_stack : (present s).stack = s.stack := rfl
@[simp] theorem present_sp : (present s).sp = s.sp := rfl
@[simp] theorem present_keys : (present s).keys = s.keys := rfl
@[simp] theorem present_aks : (present s).aks = s.aks := rfl
@[simp] theorem present_gates : (present s).gates = s.gates := rfl
@[simp] theorem present_io : (present s).io = { s.io with out := s.io.out ++ [.present s.framebuffer] } := rfl
@[simp] theorem present_byteAt (a : Nat) : (present s).byteAt a = s.byteAt a := rfl
@[simp] theorem present_reg (z : Nibble) : (present s).reg z = s.reg z := rfl

/-! ### stopLoop -/

@[simp] theorem stopLoop_cfg : (stopLoop s).cfg = s.cfg := rfl
@[simp] theorem stopLoop_mem : (stopLoop s).mem = s.mem := rfl
@[simp] theorem stopLoop_v : (stopLoop s).v = s.v := rfl
@[simp] theorem stopLoop_i : (stopLoop s).i = s.i := rfl
@[simp] theorem stopLoop_pc : (stopLoop s).pc = s.pc := rfl
@[simp] theorem stopLoop_dt : (stopLoop s).dt = s.dt := rfl
@[simp] theorem stopLoop_st : (stopLoop s).st = s.st := rfl
@[simp] theorem stopLoop_stack : (stopLoop s).stack = s.stack := rfl
@[simp] theorem stopLoop_sp : (stopLoop s).sp = s.sp := rfl
@[simp] theorem stopLoop_keys : (stopLoop s).keys = s.keys := rfl
@[simp] theorem stopLoop_aks : (stopLoop s).aks = s.aks := rfl
@[simp] theorem stopLoop_gates : (stopLoop s).gates = s.gates := rfl
@[simp] theorem stopLoop_io : (stopLoop s).io = { s.io with stopped := true } := rfl
@[simp] theorem stopLoop_byteAt (a : Nat) : (stopLoop s).byteAt a = s.byteAt a := rfl
@[simp] theorem stopLoop_reg (z : Nibble) : (stopLoop s).reg z = s.reg z := rfl

/-! ### Readers of one element -/

/-- V[z] after V[x] <- b (R21). -/
@[simp] theorem State.reg_setReg (x z : Nibble) (b : Byte) : (s.setReg x b).reg z = if z = x then b else s.reg z := by
  have key : (x.toNat = z.toNat) = (z = x) :=
    propext ⟨fun h => (BitVec.toNat_inj.mp h).symm, fun h => by rw [h]⟩
  simp only [State.reg, State.setReg, Vector.getElem_set, key]

/-- V[z] after VF <- flag (R22). -/
@[simp] theorem State.reg_setFlag (b : Bool) (z : Nibble) :
    (s.setFlag b).reg z = if z = vf then flagByte b else s.reg z := State.reg_setReg s vf z (flagByte b)

/-- keys[j] after keys[k] <- b (R33). -/
@[simp] theorem State.keyDown_setKey (k j : Nibble) (b : Bool) :
    (s.setKey k b).keyDown j = if j = k then b else s.keyDown j := by
  have key : (k.toNat = j.toNat) = (j = k) :=
    propext ⟨fun h => (BitVec.toNat_inj.mp h).symm, fun h => by rw [h]⟩
  simp only [State.keyDown, State.setKey, Vector.getElem_set, key]

/-- The registers of two states agree when each one does. -/
theorem regs_ext {s t : State} (h : ∀ z, t.reg z = s.reg z) : t.v = s.v := by
  apply Vector.ext
  intro j hj
  have h16 : (BitVec.ofNat 4 j).toNat = j := by simp; omega
  have := h (BitVec.ofNat 4 j)
  simpa only [State.reg, h16] using this

/-- Writing the flag, then the result: the result wins where they aim at one register (R120). -/
@[simp] theorem State.reg_flagThenResult (x z : Nibble) (f : Bool) (r : Byte) :
    (s.flagThenResult x f r).reg z = if z = x then r else if z = vf then flagByte f else s.reg z := by
  simp [State.flagThenResult]

end Sys2Proof.Machine
end

