-- ==== Sys2Proof/Laws/Memory.lean ====
section
/-! SUPPORT. Memory: read after write, the canonical form, and what one access of R52 and R53 can do. -/

namespace Sys2Proof.Machine

/-- What an admitted configuration says, in numbers (R8, R9). -/
structure Config.Bounds (c : Config) : Prop where
  least : 338 ≤ c.memSize
  most : c.memSize ≤ 65536
  program : c.programBase + 2 ≤ c.memSize
  font : c.fontBase + 80 ≤ c.memSize
  display : c.displayBase + 256 ≤ c.memSize
  ticks : 0 < c.ticksPerSecond
  insn : 0 < c.instructionsPerSecond
  timer : 0 < c.timerFrequency
  frame : 0 < c.frameRate

/-- The bounds of an admitted configuration. -/
theorem Config.bounds {c : Config} (h : c.wf = true) : Config.Bounds c := by
  simp only [Config.wf, Bool.and_eq_true, decide_eq_true_eq] at h
  obtain ⟨⟨⟨⟨⟨⟨⟨⟨h1, h2⟩, h3⟩, h4⟩, h5⟩, h6⟩, h7⟩, h8⟩, h9⟩ := h
  exact ⟨h1, h2, h3, h4, h5, h6, h7, h8, h9⟩

/-- Empty memory is in canonical form. -/
@[simp] theorem Memory.wf_nil (cfg : Config) : Memory.wf cfg [] = true := rfl

/-- What the canonical form says of a non-empty list. -/
theorem Memory.wf_cons {cfg : Config} {a : Nat} {v : Byte} {m : Memory} :
    Memory.wf cfg ((a, v) :: m) = true ↔
      a < cfg.memSize ∧ v ≠ resetByte cfg a ∧ (∀ c ∈ m, a < c.1) ∧ Memory.wf cfg m = true := by
  simp [Memory.wf, and_assoc]

/-- An address below every listed one reads as its reset byte. -/
theorem Memory.get_of_lt {cfg : Config} {m : Memory} {a : Nat} (h : ∀ c ∈ m, a < c.1) :
    Memory.get cfg m a = resetByte cfg a := by
  induction m with
  | nil => rfl
  | cons c m ih =>
    have hc : a < c.1 := h c (by simp)
    have : a ≠ c.1 := by omega
    simp [Memory.get, this, ih (fun d hd => h d (by simp [hd]))]

/-- A write leaves every other address alone (R53), whatever the list. -/
@[simp] theorem Memory.get_set_of_ne {cfg : Config} {m : Memory} {a b : Nat} {v : Byte} (h : b ≠ a) :
    Memory.get cfg (Memory.set cfg m a v) b = Memory.get cfg m b := by
  induction m with
  | nil => unfold Memory.set; split <;> simp [Memory.get, h]
  | cons c m ih =>
    unfold Memory.set
    split
    · split <;> simp [Memory.get, h]
    · split
      · next hac => subst hac; split <;> simp [Memory.get, h]
      · simp [Memory.get, ih]

/-- A read after a write to the same address gives the byte written (R52, R53, R62). -/
@[simp] theorem Memory.get_set_same {cfg : Config} {m : Memory} {a : Nat} {v : Byte} (h : Memory.wf cfg m = true) :
    Memory.get cfg (Memory.set cfg m a v) a = v := by
  induction m with
  | nil => unfold Memory.set; split <;> simp_all [Memory.get]
  | cons c m ih =>
    obtain ⟨b, w⟩ := c
    obtain ⟨-, -, hlt, hwf⟩ := Memory.wf_cons.mp h
    unfold Memory.set
    split
    · next hab =>
      split
      · next hv =>
        rw [Memory.get_of_lt, hv]
        intro c hc
        rcases List.mem_cons.mp hc with rfl | hc
        · exact hab
        · exact Nat.lt_trans hab (hlt c hc)
      · simp [Memory.get]
    · split
      · next hab =>
        subst hab
        split
        · next hv => rw [Memory.get_of_lt hlt, hv]
        · simp [Memory.get]
      · next hne => simp [Memory.get, hne, ih hwf]

/-- Both readings of a write at once. -/
theorem Memory.get_set {cfg : Config} {m : Memory} {a b : Nat} {v : Byte} (h : Memory.wf cfg m = true) :
    Memory.get cfg (Memory.set cfg m a v) b = if b = a then v else Memory.get cfg m b := by
  split
  · next hb => rw [hb, Memory.get_set_same h]
  · next hb => exact Memory.get_set_of_ne hb

/-- A write lists no address but the one written and those already listed. -/
theorem Memory.mem_set {cfg : Config} {m : Memory} {a : Nat} {v : Byte} {c : Host.Cell}
    (h : c ∈ Memory.set cfg m a v) : c.1 = a ∨ c ∈ m := by
  induction m with
  | nil => unfold Memory.set at h; split at h <;> simp_all
  | cons d m ih =>
    unfold Memory.set at h
    split at h
    · split at h
      · exact .inr h
      · rcases List.mem_cons.mp h with rfl | h
        · exact .inl rfl
        · exact .inr h
    · split at h
      · split at h
        · exact .inr (List.mem_cons_of_mem _ h)
        · rcases List.mem_cons.mp h with rfl | h
          · exact .inl rfl
          · exact .inr (List.mem_cons_of_mem _ h)
      · rcases List.mem_cons.mp h with rfl | h
        · exact .inr (by simp)
        · exact (ih h).imp_right (List.mem_cons_of_mem _)

/-- A write below MEM_SIZE keeps the canonical form. -/
theorem Memory.wf_set {cfg : Config} {m : Memory} {a : Nat} {v : Byte} (h : Memory.wf cfg m = true)
    (ha : a < cfg.memSize) : Memory.wf cfg (Memory.set cfg m a v) = true := by
  induction m with
  | nil =>
    unfold Memory.set
    split
    · rfl
    · next hv => simp [Memory.wf, ha, hv]
  | cons c m ih =>
    obtain ⟨b, w⟩ := c
    obtain ⟨hb, hw, hlt, hwf⟩ := Memory.wf_cons.mp h
    unfold Memory.set
    split
    · next hab =>
      split
      · exact h
      · next hv =>
        refine Memory.wf_cons.mpr ⟨ha, hv, fun c hc => ?_, h⟩
        rcases List.mem_cons.mp hc with rfl | hc
        · exact hab
        · exact Nat.lt_trans hab (hlt c hc)
    · next hab =>
      split
      · next heq =>
        subst heq
        split
        · exact hwf
        · next hv => exact Memory.wf_cons.mpr ⟨ha, hv, hlt, hwf⟩
      · next hne =>
        refine Memory.wf_cons.mpr ⟨hb, hw, fun c hc => ?_, ih hwf⟩
        rcases Memory.mem_set hc with hc | hc
        · omega
        · exact hlt c hc

/-- A read answers a byte exactly below MEM_SIZE (R52, R54). -/
theorem memRead_ok {a : Nat} {s : State} (h : a < s.cfg.memSize) : memRead a s = .ok (s.byteAt a) := by
  simp [memRead, h]

/-- A read at MEM_SIZE or more is the model fault (R54). -/
theorem memRead_fault {a : Nat} {s : State} (h : s.cfg.memSize ≤ a) : memRead a s = .error (.addrOutOfRange a) := by
  simp [memRead, h]

/-- All that a read can answer. -/
theorem memRead_cases {a : Nat} {s : State} {b : Byte} (h : memRead a s = .ok b) :
    a < s.cfg.memSize ∧ b = s.byteAt a := by
  unfold memRead at h
  split at h
  · next ha => exact ⟨ha, (Except.ok.inj h).symm⟩
  · cases h

/-- A write answers a next state below MEM_SIZE (R53). -/
theorem memWrite_ok {a : Nat} {v : Byte} {s : State} (h : a < s.cfg.memSize) :
    memWrite a v s = .ok { s with mem := Memory.set s.cfg s.mem a v } := by
  simp [memWrite, h]

/-- A write at MEM_SIZE or more is the model fault (R54). -/
theorem memWrite_fault {a : Nat} {v : Byte} {s : State} (h : s.cfg.memSize ≤ a) :
    memWrite a v s = .error (.addrOutOfRange a) := by
  simp [memWrite, h]

/-- All that a write can do: one byte of `mem`, and nothing else. -/
theorem memWrite_cases {a : Nat} {v : Byte} {s t : State} (h : memWrite a v s = .ok t) :
    a < s.cfg.memSize ∧ t = { s with mem := Memory.set s.cfg s.mem a v } := by
  unfold memWrite at h
  split at h
  · next ha => exact ⟨ha, (Except.ok.inj h).symm⟩
  · cases h

/-- How every byte reads after a write. -/
theorem byteAt_set {s : State} {a b : Nat} {v : Byte} (h : Memory.wf s.cfg s.mem = true) :
    State.byteAt { s with mem := Memory.set s.cfg s.mem a v } b = if b = a then v else s.byteAt b :=
  Memory.get_set h

end Sys2Proof.Machine
end

