-- ==== Sys2Proof/Laws/Boot.lean ====
section
/-! SUPPORT. The load of a program: what it admits, where its bytes go, and that memory stays in canonical form. -/

namespace Sys2Proof.Machine

/-- A load that ends inside memory keeps the canonical form, puts each byte in its place and touches no other (R43). -/
theorem loadBytes_spec {cfg : Config} {program : List Byte} {a : Nat} {m : Memory} (hm : Memory.wf cfg m = true)
    (hin : a + program.length ≤ cfg.memSize) :
    Memory.wf cfg (loadBytes cfg program a m) = true ∧
      ∀ b, Memory.get cfg (loadBytes cfg program a m) b =
        if h : a ≤ b ∧ b < a + program.length then program[b - a] else Memory.get cfg m b := by
  induction program generalizing a m with
  | nil => exact ⟨hm, fun b => by rw [dif_neg (by simp)]; rfl⟩
  | cons x rest ih =>
    simp only [List.length_cons] at hin
    obtain ⟨h1, h2⟩ := ih (a := a + 1) (Memory.wf_set (a := a) (v := x) hm (by omega)) (by omega)
    refine ⟨h1, fun b => ?_⟩
    rw [loadBytes, h2, Memory.get_set hm]
    by_cases hb : b = a
    · subst hb; simp
    · by_cases hin' : a + 1 ≤ b ∧ b < a + 1 + rest.length
      · rw [dif_pos hin', dif_pos (by simp only [List.length_cons]; omega)]
        simp [show b - a = b - (a + 1) + 1 by omega]
      · rw [dif_neg hin', dif_neg (by simp only [List.length_cons]; omega), if_neg hb]

/-- What an admitted program meets (R43). -/
theorem loadAdmitted_iff {cfg : Config} {len : Nat} :
    loadAdmitted cfg len = true ↔ cfg.programBase + len ≤ cfg.memSize ∧
      (len = 0 ∨ cfg.programBase + len ≤ cfg.fontBase ∨ cfg.fontBase + fontBytes ≤ cfg.programBase) := by
  simp [loadAdmitted, or_assoc]

/-- All that `boot` answers: the power-on state with the program in place, for an admitted configuration and program. -/
theorem boot_cases {cfg : Config} {program : List Byte} {s : State} (h : boot cfg program = .ok s) :
    cfg.wf = true ∧ loadAdmitted cfg program.length = true ∧
      s = { State.powerOn cfg with mem := loadBytes cfg program cfg.programBase [] } := by
  unfold boot at h
  split at h
  · cases h
  · next hc =>
    split at h
    · cases h
    · next hl => exact ⟨by simpa using hc, by simpa using hl, (Except.ok.inj h).symm⟩

end Sys2Proof.Machine
end

