-- ==== Sys2Proof/Laws/Decode.lean ====
section
/-! SUPPORT. The fields of a formatted word, and the bytes of a word. -/

namespace Sys2Proof

@[simp] theorem opField_formatA (op : Nibble) (nnn : Addr12) : opField (formatA op nnn) = op := by
  apply BitVec.eq_of_getLsbD_eq
  intro j hj
  simp only [opField, formatA, BitVec.getLsbD_extractLsb', BitVec.getLsbD_append]
  simp [hj]

@[simp] theorem nnnField_formatA (op : Nibble) (nnn : Addr12) : nnnField (formatA op nnn) = nnn := by
  apply BitVec.eq_of_getLsbD_eq
  intro j hj
  simp only [nnnField, formatA, BitVec.getLsbD_extractLsb', BitVec.getLsbD_append]
  simp [hj]

@[simp] theorem xField_formatA (op : Nibble) (nnn : Addr12) : xField (formatA op nnn) = topDigit nnn := by
  apply BitVec.eq_of_getLsbD_eq
  intro j hj
  have : 8 + j < 12 := by omega
  simp only [xField, formatA, topDigit, BitVec.getLsbD_extractLsb', BitVec.getLsbD_append]
  simp [this]

@[simp] theorem opField_formatI (op x : Nibble) (nn : Byte) : opField (formatI op x nn) = op := by
  apply BitVec.eq_of_getLsbD_eq
  intro j hj
  simp only [opField, formatI, BitVec.getLsbD_extractLsb', BitVec.getLsbD_append]
  have h1 : ¬ 12 + j < 8 := by omega
  have h2 : ¬ 12 + j - 8 < 4 := by omega
  have h3 : 12 + j - 8 - 4 = j := by omega
  simp [hj, h1, h2, h3]

@[simp] theorem xField_formatI (op x : Nibble) (nn : Byte) : xField (formatI op x nn) = x := by
  apply BitVec.eq_of_getLsbD_eq
  intro j hj
  simp only [xField, formatI, BitVec.getLsbD_extractLsb', BitVec.getLsbD_append]
  simp [hj]

@[simp] theorem nnField_formatI (op x : Nibble) (nn : Byte) : nnField (formatI op x nn) = nn := by
  apply BitVec.eq_of_getLsbD_eq
  intro j hj
  simp only [nnField, formatI, BitVec.getLsbD_extractLsb', BitVec.getLsbD_append]
  simp [hj]

@[simp] theorem opField_formatR (op x y n : Nibble) : opField (formatR op x y n) = op := by
  apply BitVec.eq_of_getLsbD_eq
  intro j hj
  simp only [opField, formatR, BitVec.getLsbD_extractLsb', BitVec.getLsbD_append]
  have h1 : ¬ 12 + j < 4 := by omega
  have h2 : ¬ 12 + j - 4 < 4 := by omega
  have h3 : ¬ 12 + j - 4 - 4 < 4 := by omega
  have h4 : 12 + j - 4 - 4 - 4 = j := by omega
  simp [hj, h1, h2, h3, h4]

@[simp] theorem xField_formatR (op x y n : Nibble) : xField (formatR op x y n) = x := by
  apply BitVec.eq_of_getLsbD_eq
  intro j hj
  simp only [xField, formatR, BitVec.getLsbD_extractLsb', BitVec.getLsbD_append]
  have h1 : ¬ 8 + j < 4 := by omega
  have h2 : ¬ 8 + j - 4 < 4 := by omega
  have h3 : 8 + j - 4 - 4 = j := by omega
  simp [hj, h1, h2, h3]

@[simp] theorem yField_formatR (op x y n : Nibble) : yField (formatR op x y n) = y := by
  apply BitVec.eq_of_getLsbD_eq
  intro j hj
  simp only [yField, formatR, BitVec.getLsbD_extractLsb', BitVec.getLsbD_append]
  simp [hj]

@[simp] theorem nField_formatR (op x y n : Nibble) : nField (formatR op x y n) = n := by
  apply BitVec.eq_of_getLsbD_eq
  intro j hj
  simp only [nField, formatR, BitVec.getLsbD_extractLsb', BitVec.getLsbD_append]
  simp [hj]

/-- A word is its fields in format A. -/
theorem formatA_fields (w : Word) : formatA (opField w) (nnnField w) = w := by
  apply BitVec.eq_of_getLsbD_eq
  intro j hj
  simp only [formatA, opField, nnnField, BitVec.getLsbD_append, BitVec.getLsbD_extractLsb']
  split
  · next h => simp [h]
  · next h =>
    have h1 : j - 12 < 4 := by omega
    have h2 : 12 + (j - 12) = j := by omega
    simp [h1, h2]

/-- A word is its fields in format I. -/
theorem formatI_fields (w : Word) : formatI (opField w) (xField w) (nnField w) = w := by
  apply BitVec.eq_of_getLsbD_eq
  intro j hj
  simp only [formatI, opField, xField, nnField, BitVec.getLsbD_append, BitVec.getLsbD_extractLsb']
  split
  · next h => simp [h]
  · split
    · next h h' =>
      have h2 : 8 + (j - 8) = j := by omega
      simp [h', h2]
    · next h h' =>
      have h1 : j - 8 - 4 < 4 := by omega
      have h2 : 12 + (j - 8 - 4) = j := by omega
      simp [h1, h2]

/-- A word is its fields in format R. -/
theorem formatR_fields (w : Word) : formatR (opField w) (xField w) (yField w) (nField w) = w := by
  apply BitVec.eq_of_getLsbD_eq
  intro j hj
  simp only [formatR, opField, xField, yField, nField, BitVec.getLsbD_append, BitVec.getLsbD_extractLsb']
  split
  · next h => simp [h]
  · split
    · next h h' =>
      have h2 : 4 + (j - 4) = j := by omega
      simp [h', h2]
    · split
      · next h h' h'' =>
        have h2 : 8 + (j - 4 - 4) = j := by omega
        simp [h'', h2]
      · next h h' h'' =>
        have h1 : j - 4 - 4 - 4 < 4 := by omega
        have h2 : 12 + (j - 4 - 4 - 4) = j := by omega
        simp [h1, h2]

/-- The two bytes of a word, put together big-endian, are the word (R57, R70). -/
@[simp] theorem bigEndian_bytes (w : Word) : bigEndian (highByte w) (lowByte w) = w := by
  apply BitVec.eq_of_getLsbD_eq
  intro j hj
  simp only [bigEndian, highByte, lowByte, BitVec.getLsbD_append, BitVec.getLsbD_extractLsb']
  split
  · next h => simp [h]
  · next h =>
    have h1 : j - 8 < 8 := by omega
    have h2 : 8 + (j - 8) = j := by omega
    simp [h1, h2]

/-! The masks of the formats (R72): what a mask leaves of a word is its fixed fields. -/

@[simp] theorem and_maskA (w : Word) : w &&& 0xF000#16 = formatA (opField w) 0 := by
  apply BitVec.eq_of_getLsbD_eq
  intro j hj
  simp only [formatA, opField, BitVec.getLsbD_and, BitVec.getLsbD_append, BitVec.getLsbD_extractLsb']
  interval_cases j <;> simp

@[simp] theorem and_maskR (w : Word) : w &&& 0xF00F#16 = formatR (opField w) 0 0 (nField w) := by
  apply BitVec.eq_of_getLsbD_eq
  intro j hj
  simp only [formatR, opField, nField, BitVec.getLsbD_and, BitVec.getLsbD_append, BitVec.getLsbD_extractLsb']
  interval_cases j <;> simp

@[simp] theorem and_maskI (w : Word) : w &&& 0xF0FF#16 = formatI (opField w) 0 (nnField w) := by
  apply BitVec.eq_of_getLsbD_eq
  intro j hj
  simp only [formatI, opField, nnField, BitVec.getLsbD_and, BitVec.getLsbD_append, BitVec.getLsbD_extractLsb']
  interval_cases j <;> simp

end Sys2Proof
end

