-- ==== Sys2Proof/Laws/Loop.lean ====
section
/-! SUPPORT. The ascending loop of the memory instructions: what it keeps, when it completes, where it faults; and the storing loop
of 00E0, FX33 and FX55 in closed form. -/

namespace Sys2Proof.Machine

/-- What every turn of the body keeps, the loop keeps. -/
theorem forUp_keeps {body : Nat → State → Except Fault State} {P : State → Prop}
    (hb : ∀ k s t, body k s = .ok t → P s → P t) :
    ∀ {n k : Nat} {s t : State}, forUp n k body s = .ok t → P s → P t
  | 0, _, _, _, h, hs => Except.ok.inj h ▸ hs
  | n + 1, k, s, t, h, hs => by
    unfold forUp at h
    split at h
    · next u hu => exact forUp_keeps hb h (hb k s u hu hs)
    · cases h

/-- Where every turn completes and carries a fact indexed by the turn, the loop completes and carries it to the end. -/
theorem forUp_completes {body : Nat → State → Except Fault State} {P : Nat → State → Prop} {n k : Nat}
    (hb : ∀ j s, k ≤ j → j < k + n → P j s → ∃ t, body j s = .ok t ∧ P (j + 1) t) {s : State} (hs : P k s) :
    ∃ t, forUp n k body s = .ok t ∧ P (k + n) t := by
  induction n generalizing k s with
  | zero => exact ⟨s, rfl, by simpa using hs⟩
  | succ n ih =>
    obtain ⟨u, hu, hp⟩ := hb k s (Nat.le_refl _) (by omega) hs
    obtain ⟨t, ht, hq⟩ := ih (k := k + 1) (fun j v h1 h2 => hb j v (by omega) (by omega)) hp
    exact ⟨t, by rw [forUp, hu]; exact ht, by rwa [show k + (n + 1) = k + 1 + n by omega]⟩

/-- Where every turn before turn `m` completes and turn `m` faults, the loop is that fault. -/
theorem forUp_faults {body : Nat → State → Except Fault State} {P : Nat → State → Prop} {n k m : Nat} {f : Fault}
    (hb : ∀ j s, k ≤ j → j < m → P j s → ∃ t, body j s = .ok t ∧ P (j + 1) t)
    (hf : ∀ s, P m s → body m s = .error f) (hkm : k ≤ m) (hmn : m < k + n) {s : State} (hs : P k s) :
    forUp n k body s = .error f := by
  induction n generalizing k s with
  | zero => omega
  | succ n ih =>
    by_cases hk : k = m
    · subst hk; simp [forUp, hf s hs]
    · obtain ⟨u, hu, hp⟩ := hb k s (Nat.le_refl _) (by omega) hs
      simp only [forUp, hu]
      exact ih (fun j v h1 h2 => hb j v (by omega) h2) (by omega) (by omega) hp

/-- A storing loop inside memory completes; it changes `mem` alone, and every byte reads as stored or as before. The byte a turn
stores may be read from the state, as long as it does not depend on `mem`. -/
theorem forUp_store {s : State} {base n k : Nat} {val : Nat → State → Byte}
    (hval : ∀ j m, val j { s with mem := m } = val j s) (hwf : Memory.wf s.cfg s.mem = true)
    (hin : base + (k + n) ≤ s.cfg.memSize) :
    ∃ m, forUp n k (fun j t => memWrite (base + j) (val j t) t) s = .ok { s with mem := m } ∧ Memory.wf s.cfg m = true ∧
      ∀ a, Memory.get s.cfg m a = if base + k ≤ a ∧ a < base + (k + n) then val (a - base) s else s.byteAt a := by
  obtain ⟨t, ht, m, rfl, hm, hg⟩ := forUp_completes (n := n) (k := k) (s := s)
    (body := fun j t => memWrite (base + j) (val j t) t)
    (P := fun j t => ∃ m, t = { s with mem := m } ∧ Memory.wf s.cfg m = true ∧
      ∀ a, Memory.get s.cfg m a = if base + k ≤ a ∧ a < base + j then val (a - base) s else s.byteAt a)
    (by
      rintro j _ hkj hj ⟨m, rfl, hm, hg⟩
      have hlt : base + j < s.cfg.memSize := by omega
      refine ⟨_, memWrite_ok hlt, Memory.set s.cfg m (base + j) (val j s), by simp [hval], Memory.wf_set hm hlt, fun a => ?_⟩
      rw [Memory.get_set hm, hg]
      by_cases ha : a = base + j
      · subst ha; simp; omega
      · have : (a < base + (j + 1)) = (a < base + j) := propext (by omega)
        simp [ha, this])
    ⟨s.mem, rfl, hwf, fun a => by simp [State.byteAt]⟩
  exact ⟨m, ht, hm, hg⟩

/-- FX65's loop inside memory completes; it changes registers alone: those the loop reached are loaded. -/
theorem forUp_load {s : State} {base n : Nat} (hn : n ≤ 16) (hin : base + n ≤ s.cfg.memSize) :
    ∃ t, forUp n 0 (loadReg base) s = .ok t ∧ t = { s with v := t.v } ∧
      ∀ z : Nibble, t.reg z = if z.toNat < n then s.byteAt (base + z.toNat) else s.reg z := by
  obtain ⟨t, ht, heq, hr⟩ := forUp_completes (n := n) (k := 0) (s := s) (body := loadReg base)
    (P := fun j t => t = { s with v := t.v } ∧
      ∀ z : Nibble, t.reg z = if z.toNat < j then s.byteAt (base + z.toNat) else s.reg z)
    (by
      rintro j t - hj ⟨heq, hr⟩
      have hcfg : t.cfg = s.cfg := by rw [heq]
      have hbyte : ∀ a, t.byteAt a = s.byteAt a := fun a => by rw [heq]; rfl
      have hlt : base + j < t.cfg.memSize := by rw [hcfg]; omega
      refine ⟨t.setReg (regIndex j) (t.byteAt (base + j)), by simp [loadReg, memRead_ok hlt], by rw [heq]; rfl, fun z => ?_⟩
      have hidx : (regIndex j).toNat = j := by simp [regIndex]; omega
      rw [State.reg_setReg, hbyte]
      by_cases hz : z = regIndex j
      · subst hz; simp [hidx]
      · have : z.toNat ≠ j := fun h => hz (BitVec.eq_of_toNat_eq (by rw [hidx]; exact h))
        have : (z.toNat < j + 1) = (z.toNat < j) := propext (by omega)
        simp [hz, hr z, this])
    ⟨rfl, fun z => by simp⟩
  exact ⟨t, ht, heq, by simpa using hr⟩

end Sys2Proof.Machine
end

