-- ==== Sys2Proof/Laws/Draw.lean ====
section
/-! SUPPORT. The pixel operations of DXYN (43_display.md): what toggling one pixel does, and what the eight bits of one row do. -/

namespace Sys2Proof.Machine

/-- What drawing may change: VF and display bytes. -/
structure DrawFrame (s t : State) : Prop where
  only : t = { s with v := t.v, mem := t.mem }
  regs : ∀ z, z ≠ vf → t.reg z = s.reg z
  bytes : ∀ a, ¬ inDisplay s.cfg a → t.byteAt a = s.byteAt a
  canonical : Memory.wf s.cfg s.mem = true → Memory.wf s.cfg t.mem = true

theorem DrawFrame.rfl' (s : State) : DrawFrame s s := ⟨rfl, fun _ _ => rfl, fun _ _ => rfl, id⟩

theorem DrawFrame.cfg {s t : State} (h : DrawFrame s t) : t.cfg = s.cfg := by rw [h.only]

theorem DrawFrame.trans {s t u : State} (h : DrawFrame s t) (k : DrawFrame t u) : DrawFrame s u where
  only := by rw [k.only, h.only]
  regs z hz := (k.regs z hz).trans (h.regs z hz)
  bytes a ha := (k.bytes a (by rwa [h.cfg])).trans (h.bytes a ha)
  canonical hm := by
    have := k.canonical (by rw [h.cfg]; exact h.canonical hm)
    rwa [h.cfg] at this

/-- A pixel's byte lies in the display region. -/
theorem pixelAddr_inDisplay {cfg : Config} {x y : Nat} (hx : x < 64) (hy : y < 32) : inDisplay cfg (pixelAddr cfg x y) := by
  constructor <;> simp only [pixelAddr, fbBytes] <;> omega

/-- All that toggling a pixel can do: one display byte, and VF, which becomes 1 if the pixel was on and is otherwise left (R161,
R162). -/
theorem togglePixel_cases {s t : State} {x y : Nat} (hx : x < 64) (hy : y < 32) (h : togglePixel x y s = .ok t) :
    DrawFrame s t ∧ (t.reg vf = if s.pixel x y = true then 1 else s.reg vf) ∧
      t.mem = Memory.set s.cfg s.mem (pixelAddr s.cfg x y)
        (s.byteAt (pixelAddr s.cfg x y) ^^^ ((1#8) <<< (7 - x % 8))) := by
  have hp : s.pixel x y = (s.byteAt (pixelAddr s.cfg x y)).getLsbD (7 - x % 8) := rfl
  have hin := pixelAddr_inDisplay (cfg := s.cfg) hx hy
  unfold togglePixel at h
  split at h
  · cases h
  · next old hold =>
    obtain ⟨hlt, rfl⟩ := memRead_cases hold
    rw [← hp] at h
    cases hb : s.pixel x y <;> simp only [hb, Bool.false_eq_true, ↓reduceIte] at h ⊢ <;>
      obtain ⟨-, rfl⟩ := memWrite_cases h
    · exact ⟨⟨rfl, fun _ _ => rfl, fun a ha => Memory.get_set_of_ne (fun e => ha (e ▸ hin)), fun hm => Memory.wf_set hm hlt⟩,
        rfl, rfl⟩
    · exact ⟨⟨rfl, fun z hz => (State.reg_setFlag s true z).trans (if_neg hz),
        fun a ha => Memory.get_set_of_ne (fun e => ha (e ▸ hin)), fun hm => Memory.wf_set hm hlt⟩,
        (State.reg_setFlag s true vf).trans (if_pos rfl), rfl⟩

/-- Inside an admitted configuration toggling a pixel completes. -/
theorem togglePixel_completes {s : State} {x y : Nat} (hc : s.cfg.wf = true) (hx : x < 64) (hy : y < 32) :
    ∃ t, togglePixel x y s = .ok t := by
  have hd := (Config.bounds hc).display
  have hlt : pixelAddr s.cfg x y < s.cfg.memSize := by
    have := (pixelAddr_inDisplay (cfg := s.cfg) hx hy).2; simp only [fbBytes] at this; omega
  have hlt' : ∀ b : Bool, pixelAddr s.cfg x y < (if b = true then s.setFlag true else s).cfg.memSize := by
    intro b; cases b <;> exact hlt
  exact ⟨_, by simp only [togglePixel, memRead_ok hlt]; exact memWrite_ok (hlt' _)⟩

/-- Two pixels share their byte and their bit only if they are one pixel (R37). -/
theorem pixel_place_inj {cfg : Config} {x y col row : Nat} (hx : x < 64) (hcol : col < 64)
    (ha : pixelAddr cfg col row = pixelAddr cfg x y) (hb : 7 - col % 8 = 7 - x % 8) : col = x ∧ row = y := by
  simp only [pixelAddr] at ha; omega

/-- How every pixel reads after a toggle: that one is inverted, the others are as before. -/
theorem pixel_of_toggled {s t : State} {x y col row : Nat} (hm : Memory.wf s.cfg s.mem = true) (hcfg : t.cfg = s.cfg)
    (ht : t.mem = Memory.set s.cfg s.mem (pixelAddr s.cfg x y)
        (s.byteAt (pixelAddr s.cfg x y) ^^^ ((1#8) <<< (7 - x % 8))))
    (hx : x < 64) (hcol : col < 64) :
    t.pixel col row = (s.pixel col row ^^ decide (col = x ∧ row = y)) := by
  have hp : ∀ u : State, u.pixel col row = (u.byteAt (pixelAddr u.cfg col row)).getLsbD (7 - col % 8) := fun _ => rfl
  rw [hp, hp, hcfg, State.byteAt, hcfg, ht, Memory.get_set hm]
  by_cases ha : pixelAddr s.cfg col row = pixelAddr s.cfg x y
  · rw [if_pos ha, ha, BitVec.getLsbD_xor, BitVec.getLsbD_shiftLeft]
    congr 1
    by_cases hb : 7 - col % 8 = 7 - x % 8
    · have := pixel_place_inj hx hcol ha hb
      rw [hb]; simp [this]; omega
    · have hne : ¬ (col = x ∧ row = y) := fun h => hb (by rw [h.1])
      have h1 : ((1#8).getLsbD (7 - col % 8 - (7 - x % 8)) && !decide (7 - col % 8 < 7 - x % 8)) = false := by
        by_cases hlt : 7 - col % 8 < 7 - x % 8
        · simp [hlt]
        · have : 7 - col % 8 - (7 - x % 8) ≠ 0 := by omega
          simp [this]
      simp only [hne, decide_false, Bool.and_eq_false_iff]
      simp only [Bool.and_eq_false_iff] at h1
      tauto
  · rw [if_neg ha]
    have hne : ¬ (col = x ∧ row = y) := fun h => ha (by rw [h.1, h.2])
    simp [hne, State.byteAt]

/-- Whether bit `c` of row `r` of a sprite lights its pixel: the bit is 1 and the pixel inside the display (R161, R163). -/
def bitLights (ox oy r : Nat) (b : Byte) (c : Nat) : Prop := b.getLsbD (7 - c) = true ∧ ox + c < 64 ∧ oy + r < 32

/-- All that one bit of a row can do. -/
theorem drawBit_frame {s t : State} {ox oy r c : Nat} {b : Byte} (h : drawBit ox oy r b c s = .ok t) : DrawFrame s t := by
  unfold drawBit at h
  split at h
  · next hl => exact (togglePixel_cases hl.2.1 hl.2.2 h).1
  · exact Except.ok.inj h ▸ DrawFrame.rfl' s

/-- All that DXYN's loops can do: VF and display bytes. -/
theorem drawRows_frame {base ox oy n k : Nat} {s t : State} (h : forUp n k (drawRow base ox oy) s = .ok t) : DrawFrame s t := by
  refine forUp_keeps (P := fun u => DrawFrame s u) ?_ h (DrawFrame.rfl' s)
  intro j u v hv hu
  unfold drawRow at hv
  split at hv
  · cases hv
  · exact forUp_keeps (P := fun w => DrawFrame s w) (fun _ _ _ hw hx => hx.trans (drawBit_frame hw)) hv hu

/-- One bit of a row completes: it toggles its pixel if it lights it, and else does nothing. -/
theorem drawBit_completes {s : State} {ox oy r c : Nat} {b : Byte} (hc : s.cfg.wf = true) :
    ∃ t, drawBit ox oy r b c s = .ok t ∧ DrawFrame s t ∧
      (bitLights ox oy r b c → (t.reg vf = if s.pixel (ox + c) (oy + r) = true then 1 else s.reg vf) ∧
        t.mem = Memory.set s.cfg s.mem (pixelAddr s.cfg (ox + c) (oy + r))
          (s.byteAt (pixelAddr s.cfg (ox + c) (oy + r)) ^^^ ((1#8) <<< (7 - (ox + c) % 8)))) ∧
      (¬ bitLights ox oy r b c → t = s) := by
  by_cases h : bitLights ox oy r b c
  · obtain ⟨t, ht⟩ := togglePixel_completes (s := s) hc h.2.1 h.2.2
    obtain ⟨hf, hv, hm⟩ := togglePixel_cases h.2.1 h.2.2 ht
    have hl : b.getLsbD (7 - c) = true ∧ ox + c < 64 ∧ oy + r < 32 := h
    exact ⟨t, by rw [drawBit, if_pos hl, ht], hf, fun _ => ⟨hv, hm⟩, fun k => absurd h k⟩
  · have hl : ¬ (b.getLsbD (7 - c) = true ∧ ox + c < 64 ∧ oy + r < 32) := h
    exact ⟨s, by rw [drawBit, if_neg hl], DrawFrame.rfl' s, fun k => absurd k h, fun _ => rfl⟩

/-- The first `n` bits of a row complete within the frame; every pixel they light is inverted and no other, and VF becomes 1
exactly if one of them was on. -/
theorem drawBits_complete {s : State} {ox oy r n : Nat} {b : Byte} (hc : s.cfg.wf = true) :
    ∃ t, forUp n 0 (drawBit ox oy r b) s = .ok t ∧ DrawFrame s t ∧ (t.reg vf = 1 ∨ t.reg vf = s.reg vf) ∧
      (Memory.wf s.cfg s.mem = true →
        (∀ col row, col < 64 → (t.pixel col row = true ↔
          (¬ (s.pixel col row = true ↔ ∃ c, c < n ∧ bitLights ox oy r b c ∧ col = ox + c ∧ row = oy + r)))) ∧
        ((∃ c, c < n ∧ bitLights ox oy r b c ∧ s.pixel (ox + c) (oy + r) = true) → t.reg vf = 1) ∧
        (¬ (∃ c, c < n ∧ bitLights ox oy r b c ∧ s.pixel (ox + c) (oy + r) = true) → t.reg vf = s.reg vf)) := by
  have key := forUp_completes (n := n) (k := 0) (s := s) (body := drawBit ox oy r b)
    (P := fun j t => DrawFrame s t ∧ (t.reg vf = 1 ∨ t.reg vf = s.reg vf) ∧
      (Memory.wf s.cfg s.mem = true →
        (∀ col row, col < 64 → (t.pixel col row = true ↔
          (¬ (s.pixel col row = true ↔ ∃ c, c < j ∧ bitLights ox oy r b c ∧ col = ox + c ∧ row = oy + r)))) ∧
        ((∃ c, c < j ∧ bitLights ox oy r b c ∧ s.pixel (ox + c) (oy + r) = true) → t.reg vf = 1) ∧
        (¬ (∃ c, c < j ∧ bitLights ox oy r b c ∧ s.pixel (ox + c) (oy + r) = true) → t.reg vf = s.reg vf)))
    (by
      rintro j t - - ⟨hf, hv, hp⟩
      obtain ⟨u, hu, hg, hyes, hno⟩ := drawBit_completes (s := t) (ox := ox) (oy := oy) (r := r) (c := j) (b := b)
        (by rw [hf.cfg]; exact hc)
      refine ⟨u, hu, hf.trans hg, ?_, fun hm => ?_⟩
      · by_cases hl : bitLights ox oy r b j
        · rw [(hyes hl).1]; split
          · exact .inl rfl
          · exact hv
        · rw [hno hl]; exact hv
      · obtain ⟨hpix, hon, hoff⟩ := hp hm
        by_cases hl : bitLights ox oy r b j
        · obtain ⟨hvf, hmem⟩ := hyes hl
          have hsame : t.pixel (ox + j) (oy + r) = s.pixel (ox + j) (oy + r) := by
            have hnone : ¬ ∃ c, c < j ∧ bitLights ox oy r b c ∧ ox + j = ox + c ∧ oy + r = oy + r := by
              rintro ⟨c, h1, -, h2, -⟩; omega
            have := hpix (ox + j) (oy + r) hl.2.1
            rw [Bool.eq_iff_iff, this, eq_false hnone]
            simp
          refine ⟨fun col row hcol => ?_, ?_, ?_⟩
          · rw [pixel_of_toggled (by rw [hf.cfg]; exact hf.canonical hm) hg.cfg hmem hl.2.1 hcol]
            have hsplit : (∃ c, c < j + 1 ∧ bitLights ox oy r b c ∧ col = ox + c ∧ row = oy + r) ↔
                ((∃ c, c < j ∧ bitLights ox oy r b c ∧ col = ox + c ∧ row = oy + r) ∨ (col = ox + j ∧ row = oy + r)) := by
              constructor
              · rintro ⟨c, h1, h2, h3, h4⟩
                by_cases hcj : c = j
                · exact .inr ⟨hcj ▸ h3, h4⟩
                · exact .inl ⟨c, by omega, h2, h3, h4⟩
              · rintro (⟨c, h1, h2⟩ | ⟨h3, h4⟩)
                · exact ⟨c, by omega, h2⟩
                · exact ⟨j, by omega, hl, h3, h4⟩
            have ht := hpix col row hcol
            rw [hsplit]
            by_cases hcr : col = ox + j ∧ row = oy + r
            · have hnone : ¬ ∃ c, c < j ∧ bitLights ox oy r b c ∧ col = ox + c ∧ row = oy + r := by
                rintro ⟨c, h1, -, h2, -⟩; omega
              rw [eq_false hnone] at ht ⊢
              have hpix : t.pixel col row = s.pixel col row := by rw [Bool.eq_iff_iff, ht]; simp
              rw [decide_eq_true hcr, eq_true hcr, hpix]; simp
            · rw [decide_eq_false hcr, eq_false hcr, or_false, ← ht]
              simp
          · rintro ⟨c, h1, h2, h3⟩
            rw [hvf, hsame]
            by_cases hcj : c = j
            · subst hcj; simp [h3]
            · split
              · rfl
              · exact hon ⟨c, by omega, h2, h3⟩
          · intro hnone
            rw [hvf, hsame, if_neg (fun h => hnone ⟨j, by omega, hl, h⟩)]
            exact hoff (fun ⟨c, h1, h2⟩ => hnone ⟨c, by omega, h2⟩)
        · have hsplit : ∀ Q : Nat → Prop, (∃ c, c < j + 1 ∧ bitLights ox oy r b c ∧ Q c) ↔
              (∃ c, c < j ∧ bitLights ox oy r b c ∧ Q c) := by
            intro Q
            constructor
            · rintro ⟨c, h1, h2, h3⟩
              by_cases hcj : c = j
              · exact absurd (hcj ▸ h2) hl
              · exact ⟨c, by omega, h2, h3⟩
            · rintro ⟨c, h1, h2⟩; exact ⟨c, by omega, h2⟩
          rw [hno hl]
          simp only [hsplit]
          exact ⟨hpix, hon, hoff⟩)
    ⟨DrawFrame.rfl' s, .inr rfl, fun _ => ⟨fun col row _ => by simp, by simp, by simp⟩⟩
  rw [Nat.zero_add] at key
  exact key

/-- The rows of a sprite inside memory complete within the frame. For a sprite outside the display region, every pixel they
light is inverted and no other, and VF becomes 1 exactly if one of them was on (R161 to R164). -/
theorem drawRows_complete {s : State} {base ox oy n : Nat} (hc : s.cfg.wf = true) (hin : n = 0 ∨ base + n ≤ s.cfg.memSize) :
    ∃ t, forUp n 0 (drawRow base ox oy) s = .ok t ∧ DrawFrame s t ∧ (t.reg vf = 1 ∨ t.reg vf = s.reg vf) ∧
      (Memory.wf s.cfg s.mem = true → (∀ r, r < n → ¬ inDisplay s.cfg (base + r)) →
        (∀ col row, col < 64 → (t.pixel col row = true ↔
          (¬ (s.pixel col row = true ↔
            ∃ r, r < n ∧ ∃ c, c < 8 ∧ bitLights ox oy r (s.byteAt (base + r)) c ∧ col = ox + c ∧ row = oy + r)))) ∧
        ((∃ r, r < n ∧ ∃ c, c < 8 ∧ bitLights ox oy r (s.byteAt (base + r)) c ∧ s.pixel (ox + c) (oy + r) = true) →
          t.reg vf = 1) ∧
        (¬ (∃ r, r < n ∧ ∃ c, c < 8 ∧ bitLights ox oy r (s.byteAt (base + r)) c ∧ s.pixel (ox + c) (oy + r) = true) →
          t.reg vf = s.reg vf)) := by
  have key := forUp_completes (n := n) (k := 0) (s := s) (body := drawRow base ox oy)
    (P := fun j t => DrawFrame s t ∧ (t.reg vf = 1 ∨ t.reg vf = s.reg vf) ∧
      (Memory.wf s.cfg s.mem = true → (∀ r, r < n → ¬ inDisplay s.cfg (base + r)) →
        (∀ col row, col < 64 → (t.pixel col row = true ↔
          (¬ (s.pixel col row = true ↔
            ∃ r, r < j ∧ ∃ c, c < 8 ∧ bitLights ox oy r (s.byteAt (base + r)) c ∧ col = ox + c ∧ row = oy + r)))) ∧
        ((∃ r, r < j ∧ ∃ c, c < 8 ∧ bitLights ox oy r (s.byteAt (base + r)) c ∧ s.pixel (ox + c) (oy + r) = true) →
          t.reg vf = 1) ∧
        (¬ (∃ r, r < j ∧ ∃ c, c < 8 ∧ bitLights ox oy r (s.byteAt (base + r)) c ∧ s.pixel (ox + c) (oy + r) = true) →
          t.reg vf = s.reg vf)))
    (by
      rintro j t - hj ⟨hf, hv, hp⟩
      have hlt : base + j < t.cfg.memSize := by rw [hf.cfg]; omega
      obtain ⟨u, hu, hg, hvu, hpu⟩ := drawBits_complete (s := t) (ox := ox) (oy := oy) (r := j) (n := 8)
        (b := t.byteAt (base + j)) (by rw [hf.cfg]; exact hc)
      refine ⟨u, by simp only [drawRow, memRead_ok hlt]; exact hu, hf.trans hg, ?_, fun hm hout => ?_⟩
      · rcases hvu with h | h
        · exact .inl h
        · rw [h]; exact hv
      · obtain ⟨hpix, hon, hoff⟩ := hp hm hout
        obtain ⟨hpix', hon', hoff'⟩ := hpu (by rw [hf.cfg]; exact hf.canonical hm)
        have hb : t.byteAt (base + j) = s.byteAt (base + j) := hf.bytes _ (hout j (by omega))
        rw [hb] at hpix' hon' hoff'
        have hsame : ∀ c, bitLights ox oy j (s.byteAt (base + j)) c →
            t.pixel (ox + c) (oy + j) = s.pixel (ox + c) (oy + j) := by
          intro c hl
          have hnone : ¬ ∃ r, r < j ∧ ∃ c', c' < 8 ∧ bitLights ox oy r (s.byteAt (base + r)) c' ∧
              ox + c = ox + c' ∧ oy + j = oy + r := by
            rintro ⟨r, h1, c', -, -, -, h2⟩; omega
          have := hpix (ox + c) (oy + j) hl.2.1
          rw [Bool.eq_iff_iff, this, eq_false hnone]; simp
        have hsplit : ∀ Q : Nat → Nat → Prop,
            (∃ r, r < j + 1 ∧ ∃ c, c < 8 ∧ bitLights ox oy r (s.byteAt (base + r)) c ∧ Q r c) ↔
            ((∃ r, r < j ∧ ∃ c, c < 8 ∧ bitLights ox oy r (s.byteAt (base + r)) c ∧ Q r c) ∨
              ∃ c, c < 8 ∧ bitLights ox oy j (s.byteAt (base + j)) c ∧ Q j c) := by
          intro Q; constructor
          · rintro ⟨r, h1, h2⟩
            by_cases hr : r = j
            · subst hr; exact .inr h2
            · exact .inl ⟨r, by omega, h2⟩
          · rintro (⟨r, h1, h2⟩ | h2)
            · exact ⟨r, by omega, h2⟩
            · exact ⟨j, by omega, h2⟩
        refine ⟨fun col row hcol => ?_, ?_, ?_⟩
        · rw [hsplit]
          have h1 := hpix col row hcol
          have h2 := hpix' col row hcol
          by_cases hB : ∃ c, c < 8 ∧ bitLights ox oy j (s.byteAt (base + j)) c ∧ col = ox + c ∧ row = oy + j
          · have hnone : ¬ ∃ r, r < j ∧ ∃ c', c' < 8 ∧ bitLights ox oy r (s.byteAt (base + r)) c' ∧ col = ox + c' ∧ row = oy + r := by
              obtain ⟨c0, -, -, -, h0⟩ := hB
              rintro ⟨r, h1, c', -, -, -, h2⟩; omega
            rw [eq_false hnone] at h1 ⊢
            rw [eq_true hB] at h2 ⊢
            have hpix : t.pixel col row = s.pixel col row := by rw [Bool.eq_iff_iff, h1]; simp
            rw [h2, hpix]; simp
          · rw [eq_false hB] at h2 ⊢
            rw [or_false, h2, ← h1]; simp
        · rw [hsplit]
          rintro (h | ⟨c, h1, h2, h3⟩)
          · by_cases hn : ∃ c, c < 8 ∧ bitLights ox oy j (s.byteAt (base + j)) c ∧ t.pixel (ox + c) (oy + j) = true
            · exact hon' hn
            · rw [hoff' hn]; exact hon h
          · exact hon' ⟨c, h1, h2, by rw [hsame c h2]; exact h3⟩
        · rw [hsplit]
          intro hn
          rw [hoff' (fun ⟨c, h1, h2, h3⟩ => hn (.inr ⟨c, h1, h2, by rw [← hsame c h2]; exact h3⟩))]
          exact hoff (fun h => hn (.inl h)))
    ⟨DrawFrame.rfl' s, .inr rfl, fun _ _ => ⟨fun col row _ => by simp, by simp, by simp⟩⟩
  rw [Nat.zero_add] at key
  exact key

end Sys2Proof.Machine
end

