-- ==== Sys2Proof/Laws/Step.lean ====
section
/-! SUPPORT. What an instruction, an executor invocation, a turn and a step can do: one inversion lemma each, and the pieces of the
state that no instruction touches. -/

namespace Sys2Proof.Machine

/-- A sequence answers a next state exactly if both parts do. -/
theorem andThen_next {r : Result} {f : State → Result} {t : State} :
    andThen r f = .next t ↔ ∃ s, r = .next s ∧ f s = .next t := by
  cases r <;> simp [andThen]

/-- An instruction that ends a memory loop answers a next state exactly if the loop completes. -/
theorem finish_next {r : Except Fault State} {g : State → State} {t : State} :
    finish r g = .next t ↔ ∃ s, r = .ok s ∧ g s = t := by
  cases r <;> simp [finish]

/-- All that a push can do (R31). -/
theorem push_some {w : Word} {s t : State} (h : push w s = some t) :
    ∃ hs : s.sp.val < 16, t = { s with stack := s.stack.set s.sp.val w hs, sp := ⟨s.sp.val + 1, Nat.succ_lt_succ hs⟩ } := by
  unfold push at h
  split at h
  · next hs => exact ⟨hs, (Option.some.inj h).symm⟩
  · cases h

/-- A push fails exactly on a full stack (R31). -/
theorem push_none {w : Word} {s : State} : push w s = none ↔ s.sp.val = 16 := by
  have := s.sp.isLt
  unfold push
  split <;> simp <;> omega

/-- All that a pop can do (R32). -/
theorem pop_some {s t : State} {w : Word} (h : pop s = some (w, t)) :
    ∃ (k : Nat) (hk : k < 16), s.sp.val = k + 1 ∧ w = s.stack[k] ∧ t = { s with sp := ⟨k, Nat.lt_succ_of_lt hk⟩ } := by
  have hlt := s.sp.isLt
  unfold pop at h
  split at h
  · next hs =>
    obtain ⟨rfl, rfl⟩ := Prod.mk.inj (Option.some.inj h)
    exact ⟨s.sp.val - 1, by omega, by omega, rfl, rfl⟩
  · cases h

/-- A pop fails exactly on an empty stack (R32). -/
theorem pop_none {s : State} : pop s = none ↔ s.sp.val = 0 := by
  unfold pop
  split <;> simp <;> omega

/-- What a storing loop can do: `mem` alone, kept in canonical form. -/
theorem forUp_store_frame {addr : Nat → Nat} {val : Nat → State → Byte} {n k : Nat} {s t : State}
    (h : forUp n k (fun j u => memWrite (addr j) (val j u) u) s = .ok t) :
    t = { s with mem := t.mem } ∧ (Memory.wf s.cfg s.mem = true → Memory.wf s.cfg t.mem = true) := by
  refine forUp_keeps (P := fun u => u = { s with mem := u.mem } ∧
    (Memory.wf s.cfg s.mem = true → Memory.wf s.cfg u.mem = true)) ?_ h ⟨rfl, id⟩
  rintro j u v hv ⟨hu, hw⟩
  obtain ⟨hlt, rfl⟩ := memWrite_cases hv
  have hcfg : u.cfg = s.cfg := by rw [hu]
  refine ⟨by rw [hu], fun hm => ?_⟩
  simp only [hcfg] at hlt ⊢
  exact Memory.wf_set (hw hm) hlt

/-- What FX65's loop can do: registers alone. -/
theorem forUp_load_frame {base n k : Nat} {s t : State} (h : forUp n k (loadReg base) s = .ok t) :
    t = { s with v := t.v } := by
  refine forUp_keeps (P := fun u => u = { s with v := u.v }) ?_ h rfl
  intro j u v hv hu
  unfold loadReg at hv
  split at hv
  · rw [← Except.ok.inj hv, hu]; rfl
  · cases hv

/-- The index quirk touches `I` alone. -/
theorem advanceIndex_only (s : State) (x : Nibble) : s.advanceIndex x = { s with i := (s.advanceIndex x).i } := by
  unfold State.advanceIndex; split <;> rfl

/-- A present event touches the output log alone, which it extends. -/
theorem presentUnlessDecoupled_only (s : State) :
    presentUnlessDecoupled s = { s with io := { s.io with out := outAfterDisplay s s } } := by
  unfold presentUnlessDecoupled outAfterDisplay; split <;> rfl

/-- FX1E's flag write touches registers alone. -/
theorem rangeFlag_only (s : State) (n : Nat) : s.rangeFlag n = { s with v := (s.rangeFlag n).v } := by
  unfold State.rangeFlag; split
  · rfl
  · split <;> rfl

/-- A skip touches `pc` alone. -/
theorem skipIf_only (s : State) (b : Bool) : s.skipIf b = { s with pc := (s.skipIf b).pc } := by
  unfold State.skipIf; split <;> rfl

/-- What one fetched word can lead to (R71, R78). -/
theorem execute_cases {s t : State} (h : execute s = .next t) :
    (∃ w i, fetch s = .ok w ∧ decodeWord w = .ok i ∧ exec i s = .next t) ∨
    (∃ w e, fetch s = .ok w ∧ decodeWord w = .error e ∧ t = unknownOpcode w s) := by
  unfold execute at h
  split at h
  · cases h
  · next w hw =>
    split at h
    · next i hi => exact .inl ⟨w, i, hw, hi, h⟩
    · next e he => exact .inr ⟨w, e, hw, he, (Host.Outcome.next.inj h).symm⟩

/-- What one step can be (R227, R229, R235): nothing once stopped, an executor invocation without a host turn, else that turn. -/
theorem step_cases {s t : State} (h : step s = .next t) :
    (s.io.stopped = true ∧ t = s) ∨
    (s.io.stopped = false ∧ s.io.turns = [] ∧ execute s = .next t) ∨
    (∃ turn rest, s.io.stopped = false ∧ s.io.turns = turn :: rest ∧ takeTurn turn (s.setTurns rest) = .next t) := by
  unfold step nextTurn at h
  split at h
  · next hs => exact .inl ⟨hs, (Host.Outcome.next.inj h).symm⟩
  · next hs =>
    have hs : s.io.stopped = false := by simpa using hs
    split at h
    · next ht => exact .inr (.inl ⟨hs, ht, h⟩)
    · next turn rest ht => exact .inr (.inr ⟨turn, rest, hs, ht, h⟩)

end Sys2Proof.Machine
end

