-- ==== Sys2Proof/Laws/Exec.lean ====
section
/-! SUPPORT. What no instruction, no executor invocation and no key event touches. -/

namespace Sys2Proof.Machine

/-- What an executor invocation leaves as it was: the configuration (R38), the keys (R33), the gates (R35), the host's turns, clock
and `stopped`; the log is only appended to (R40), and memory stays in canonical form. -/
structure ExecFrame (s t : State) : Prop where
  cfg : t.cfg = s.cfg
  keys : t.keys = s.keys
  gates : t.gates = s.gates
  turns : t.io.turns = s.io.turns
  now : t.io.now = s.io.now
  stopped : t.io.stopped = s.io.stopped
  out : s.io.out <+: t.io.out
  canonical : Memory.wf s.cfg s.mem = true → Memory.wf s.cfg t.mem = true

/-- A state that differs only in registers, timers, the call stack, `aks`, draws and the log meets the frame. -/
theorem ExecFrame.of_parts {s : State} {v i pc dt st stack sp aks rndIn draws} {out : List Output} (h : s.io.out <+: out) :
    ExecFrame s
      { s with
        v := v, i := i, pc := pc, dt := dt, st := st, stack := stack, sp := sp, aks := aks
        io := { s.io with rndIn := rndIn, draws := draws, out := out } } :=
  ⟨rfl, rfl, rfl, rfl, rfl, rfl, h, id⟩

/-- The log after 00E0 or DXYN extends the log before. -/
theorem outAfterDisplay_prefix (s t : State) : s.io.out <+: outAfterDisplay s t := by
  unfold outAfterDisplay; split
  · exact List.prefix_rfl
  · exact List.prefix_append _ _

/-- Every instruction meets the frame. -/
theorem exec_frame {i : Instr} {s t : State} (h : exec i s = .next t) : ExecFrame s t := by
  cases i
  case cls =>
    obtain ⟨u, hu, rfl⟩ := finish_next.mp h
    obtain ⟨ho, hm⟩ := forUp_store_frame (addr := fun a => a) (val := fun _ _ => 0) hu
    rw [presentUnlessDecoupled_only, ho]
    exact ⟨rfl, rfl, rfl, rfl, rfl, rfl, outAfterDisplay_prefix _ _, hm⟩
  case drw x y n =>
    obtain ⟨u, hu, rfl⟩ := finish_next.mp h
    have hf := drawRows_frame hu
    have hm : Memory.wf s.cfg s.mem = true → Memory.wf s.cfg u.mem = true := hf.canonical
    rw [presentUnlessDecoupled_only, hf.only]
    exact ⟨rfl, rfl, rfl, rfl, rfl, rfl, outAfterDisplay_prefix _ _, hm⟩
  case ldDigits x =>
    obtain ⟨u, hu, rfl⟩ := finish_next.mp h
    obtain ⟨ho, hm⟩ := forUp_store_frame hu
    rw [ho]
    exact ⟨rfl, rfl, rfl, rfl, rfl, rfl, List.prefix_rfl, hm⟩
  case storeRegs x =>
    obtain ⟨u, hu, rfl⟩ := finish_next.mp h
    obtain ⟨ho, hm⟩ := forUp_store_frame hu
    rw [advanceIndex_only, ho]
    exact ⟨rfl, rfl, rfl, rfl, rfl, rfl, List.prefix_rfl, hm⟩
  case loadRegs x =>
    obtain ⟨u, hu, rfl⟩ := finish_next.mp h
    rw [advanceIndex_only, forUp_load_frame hu]
    exact .of_parts List.prefix_rfl
  case ret =>
    simp only [exec, execRet] at h
    split at h
    · next w u hp =>
      obtain ⟨k, hk, -, -, rfl⟩ := pop_some hp
      exact Host.Outcome.next.inj h ▸ .of_parts List.prefix_rfl
    · exact Host.Outcome.next.inj h ▸ .of_parts (List.prefix_append _ _)
  case call a =>
    simp only [exec, execCall] at h
    split at h
    · next u hp =>
      obtain ⟨_, rfl⟩ := push_some hp
      exact Host.Outcome.next.inj h ▸ .of_parts List.prefix_rfl
    · exact Host.Outcome.next.inj h ▸ .of_parts (List.prefix_append _ _)
  case skp x =>
    simp only [exec, execSkp] at h
    split at h
    · rw [← Host.Outcome.next.inj h, skipIf_only]; exact .of_parts List.prefix_rfl
    · exact Host.Outcome.next.inj h ▸ .of_parts (List.prefix_append _ _)
  case sknp x =>
    simp only [exec, execSknp] at h
    split at h
    · rw [← Host.Outcome.next.inj h, skipIf_only]; exact .of_parts List.prefix_rfl
    · exact Host.Outcome.next.inj h ▸ .of_parts (List.prefix_append _ _)
  case ldKey x =>
    simp only [exec, execLdKey] at h
    split at h <;> exact Host.Outcome.next.inj h ▸ .of_parts List.prefix_rfl
  case addI x => rw [← Host.Outcome.next.inj h, rangeFlag_only]; exact .of_parts List.prefix_rfl
  case seImm x nn => rw [← Host.Outcome.next.inj h, skipIf_only]; exact .of_parts List.prefix_rfl
  case sneImm x nn => rw [← Host.Outcome.next.inj h, skipIf_only]; exact .of_parts List.prefix_rfl
  case seReg x y => rw [← Host.Outcome.next.inj h, skipIf_only]; exact .of_parts List.prefix_rfl
  case sneReg x y => rw [← Host.Outcome.next.inj h, skipIf_only]; exact .of_parts List.prefix_rfl
  all_goals exact Host.Outcome.next.inj h ▸ .of_parts List.prefix_rfl

/-- Every executor invocation meets the frame. -/
theorem execute_frame {s t : State} (h : execute s = .next t) : ExecFrame s t := by
  rcases execute_cases h with ⟨w, i, -, -, h⟩ | ⟨w, e, -, -, rfl⟩
  · exact exec_frame h
  · exact .of_parts (List.prefix_append _ _)

/-- A key event touches `keys` and `aks` alone (R210, R211). -/
theorem keyEvent_only (e : KeyEvent) (s : State) :
    keyEvent e s = { s with keys := (keyEvent e s).keys, aks := (keyEvent e s).aks } := by
  cases e with
  | down k => simp only [keyEvent, keyPressed]; split <;> rfl
  | up k => rfl

/-- Draining key events touches `keys` and `aks` alone (R212). -/
theorem drainEvents_only (es : List KeyEvent) (s : State) :
    drainEvents es s = { s with keys := (drainEvents es s).keys, aks := (drainEvents es s).aks } := by
  induction es generalizing s with
  | nil => rfl
  | cons e es ih => rw [drainEvents, ih, keyEvent_only]

end Sys2Proof.Machine
end

