-- ==== Sys2Proof/Laws/PerInstr.lean ====
section
/-! SUPPORT. Per-instruction statements: the word of an instruction selects the instruction's own row of the table R76. -/

namespace Sys2Proof.Laws.OwnRow

/-- The place of an instruction's row in the table of R76. -/
def rowIndex : Instr → Nat
  | .cls => 0 | .ret => 1 | .jp _ => 2 | .call _ => 3 | .seImm _ _ => 4 | .sneImm _ _ => 5 | .seReg _ _ => 6
  | .ldImm _ _ => 7 | .addImm _ _ => 8 | .ldReg _ _ => 9 | .orReg _ _ => 10 | .andReg _ _ => 11 | .xorReg _ _ => 12
  | .addReg _ _ => 13 | .subReg _ _ => 14 | .shr _ _ => 15 | .subn _ _ => 16 | .shl _ _ => 17 | .sneReg _ _ => 18
  | .ldI _ => 19 | .jpOffset _ _ => 20 | .rnd _ _ => 21 | .drw _ _ _ => 22 | .skp _ => 23 | .sknp _ => 24
  | .ldFromDt _ => 25 | .ldKey _ => 26 | .ldToDt _ => 27 | .ldToSt _ => 28 | .addI _ => 29 | .ldGlyph _ => 30
  | .ldDigits _ => 31 | .storeRegs _ => 32 | .loadRegs _ => 33

/-- The encoding of an instruction selects the row that stands for it in the opcode table (R76). -/
def Statement (i : Instr) : Prop :=
  (opcodeTable[rowIndex i]?).map (fun r => r.selects (encode i)) = some true

theorem cls : Statement .cls := by simp [Statement, rowIndex, opcodeTable, OpcodeRow.selects, encode]
theorem ret : Statement .ret := by simp [Statement, rowIndex, opcodeTable, OpcodeRow.selects, encode]
theorem jp (nnn : Addr12) : Statement (.jp nnn) := by
  simp [Statement, rowIndex, opcodeTable, OpcodeRow.selects, encode]; rfl
theorem call (nnn : Addr12) : Statement (.call nnn) := by
  simp [Statement, rowIndex, opcodeTable, OpcodeRow.selects, encode]; rfl
theorem ldI (nnn : Addr12) : Statement (.ldI nnn) := by
  simp [Statement, rowIndex, opcodeTable, OpcodeRow.selects, encode]; rfl
theorem jpOffset (nnn : Addr12) (x : Nibble) : Statement (.jpOffset nnn x) := by
  simp [Statement, rowIndex, opcodeTable, OpcodeRow.selects, encode]; rfl
theorem seImm (x : Nibble) (nn : Byte) : Statement (.seImm x nn) := by
  simp [Statement, rowIndex, opcodeTable, OpcodeRow.selects, encode]; rfl
theorem sneImm (x : Nibble) (nn : Byte) : Statement (.sneImm x nn) := by
  simp [Statement, rowIndex, opcodeTable, OpcodeRow.selects, encode]; rfl
theorem ldImm (x : Nibble) (nn : Byte) : Statement (.ldImm x nn) := by
  simp [Statement, rowIndex, opcodeTable, OpcodeRow.selects, encode]; rfl
theorem addImm (x : Nibble) (nn : Byte) : Statement (.addImm x nn) := by
  simp [Statement, rowIndex, opcodeTable, OpcodeRow.selects, encode]; rfl
theorem rnd (x : Nibble) (nn : Byte) : Statement (.rnd x nn) := by
  simp [Statement, rowIndex, opcodeTable, OpcodeRow.selects, encode]; rfl
theorem seReg (x y : Nibble) : Statement (.seReg x y) := by
  simp [Statement, rowIndex, opcodeTable, OpcodeRow.selects, encode]; rfl
theorem ldReg (x y : Nibble) : Statement (.ldReg x y) := by
  simp [Statement, rowIndex, opcodeTable, OpcodeRow.selects, encode]; rfl
theorem orReg (x y : Nibble) : Statement (.orReg x y) := by
  simp [Statement, rowIndex, opcodeTable, OpcodeRow.selects, encode]; rfl
theorem andReg (x y : Nibble) : Statement (.andReg x y) := by
  simp [Statement, rowIndex, opcodeTable, OpcodeRow.selects, encode]; rfl
theorem xorReg (x y : Nibble) : Statement (.xorReg x y) := by
  simp [Statement, rowIndex, opcodeTable, OpcodeRow.selects, encode]; rfl
theorem addReg (x y : Nibble) : Statement (.addReg x y) := by
  simp [Statement, rowIndex, opcodeTable, OpcodeRow.selects, encode]; rfl
theorem subReg (x y : Nibble) : Statement (.subReg x y) := by
  simp [Statement, rowIndex, opcodeTable, OpcodeRow.selects, encode]; rfl
theorem shr (x y : Nibble) : Statement (.shr x y) := by
  simp [Statement, rowIndex, opcodeTable, OpcodeRow.selects, encode]; rfl
theorem subn (x y : Nibble) : Statement (.subn x y) := by
  simp [Statement, rowIndex, opcodeTable, OpcodeRow.selects, encode]; rfl
theorem shl (x y : Nibble) : Statement (.shl x y) := by
  simp [Statement, rowIndex, opcodeTable, OpcodeRow.selects, encode]; rfl
theorem sneReg (x y : Nibble) : Statement (.sneReg x y) := by
  simp [Statement, rowIndex, opcodeTable, OpcodeRow.selects, encode]; rfl
theorem drw (x y n : Nibble) : Statement (.drw x y n) := by
  simp [Statement, rowIndex, opcodeTable, OpcodeRow.selects, encode]; rfl
theorem skp (x : Nibble) : Statement (.skp x) := by
  simp [Statement, rowIndex, opcodeTable, OpcodeRow.selects, encode]; rfl
theorem sknp (x : Nibble) : Statement (.sknp x) := by
  simp [Statement, rowIndex, opcodeTable, OpcodeRow.selects, encode]; rfl
theorem ldFromDt (x : Nibble) : Statement (.ldFromDt x) := by
  simp [Statement, rowIndex, opcodeTable, OpcodeRow.selects, encode]; rfl
theorem ldKey (x : Nibble) : Statement (.ldKey x) := by
  simp [Statement, rowIndex, opcodeTable, OpcodeRow.selects, encode]; rfl
theorem ldToDt (x : Nibble) : Statement (.ldToDt x) := by
  simp [Statement, rowIndex, opcodeTable, OpcodeRow.selects, encode]; rfl
theorem ldToSt (x : Nibble) : Statement (.ldToSt x) := by
  simp [Statement, rowIndex, opcodeTable, OpcodeRow.selects, encode]; rfl
theorem addI (x : Nibble) : Statement (.addI x) := by
  simp [Statement, rowIndex, opcodeTable, OpcodeRow.selects, encode]; rfl
theorem ldGlyph (x : Nibble) : Statement (.ldGlyph x) := by
  simp [Statement, rowIndex, opcodeTable, OpcodeRow.selects, encode]; rfl
theorem ldDigits (x : Nibble) : Statement (.ldDigits x) := by
  simp [Statement, rowIndex, opcodeTable, OpcodeRow.selects, encode]; rfl
theorem storeRegs (x : Nibble) : Statement (.storeRegs x) := by
  simp [Statement, rowIndex, opcodeTable, OpcodeRow.selects, encode]; rfl
theorem loadRegs (x : Nibble) : Statement (.loadRegs x) := by
  simp [Statement, rowIndex, opcodeTable, OpcodeRow.selects, encode]; rfl

end Sys2Proof.Laws.OwnRow
end

