-- ==== Sys2Proof/Laws/Scheduler.lean ====
section
/-! SUPPORT. What a gate, a poll and a run of key events can do. -/

namespace Sys2Proof.Machine

/-- The gate test as the comparison of R222. -/
theorem gateDue_iff {cfg : Config} {freq lastFired now : Nat} :
    gateDue cfg freq lastFired now = true ↔ (now - lastFired) * freq ≥ cfg.ticksPerSecond := by
  simp [gateDue]

/-- All that the instruction gate can lead to (R221, R223). -/
theorem insnGate_next {now : Nat} {s t : State} :
    insnGate now s = .next t ↔
      (gateDue s.cfg s.cfg.instructionsPerSecond s.gates.insn now = true ∧ ∃ u, execute s = .next u ∧ t = u.setLfInsn now) ∨
      (gateDue s.cfg s.cfg.instructionsPerSecond s.gates.insn now = false ∧ t = s) := by
  unfold insnGate
  split
  · next h => simp [h, andThen_next, eq_comm (a := t)]
  · next h => simp [h, eq_comm]

/-- A poll is the instruction gate, then the timer gate, then the display gate (R223). -/
theorem poll_next {now : Nat} {s t : State} :
    poll now s = .next t ↔ ∃ u, insnGate now s = .next u ∧ dispGate now (timerGate now u) = t := by
  simp [poll, andThen_next]

/-- The instruction gate leaves the configuration and the other two timestamps. -/
theorem insnGate_frame {now : Nat} {s t : State} (h : insnGate now s = .next t) :
    t.cfg = s.cfg ∧ t.gates.timer = s.gates.timer ∧ t.gates.disp = s.gates.disp := by
  rcases insnGate_next.mp h with ⟨-, u, hu, rfl⟩ | ⟨-, rfl⟩
  · have k := execute_frame hu
    exact ⟨k.cfg, by rw [State.setLfInsn_gates, k.gates], by rw [State.setLfInsn_gates, k.gates]⟩
  · exact ⟨rfl, rfl, rfl⟩

/-- The timer gate touches the timers and its own timestamp alone. -/
theorem timerGate_only (now : Nat) (s : State) :
    timerGate now s =
      { s with
        dt := (timerGate now s).dt, st := (timerGate now s).st
        gates := { s.gates with timer := (timerGate now s).gates.timer } } := by
  unfold timerGate; split <;> rfl

/-- The display gate touches its own timestamp and the output log alone. -/
theorem dispGate_only (now : Nat) (s : State) :
    dispGate now s =
      { s with
        gates := { s.gates with disp := (dispGate now s).gates.disp }
        io := { s.io with out := (dispGate now s).io.out } } := by
  unfold dispGate; split <;> rfl

/-- One timer, one down, never below 0 (R28). -/
theorem countDown_toNat (b : Byte) : (countDown b).toNat = b.toNat - 1 := by
  unfold countDown; split <;> bv_omega

/-- The pending events are applied in the order they occurred (R212). -/
theorem drainEvents_eq_foldl (events : List KeyEvent) (s : State) :
    drainEvents events s = events.foldl (fun t e => keyEvent e t) s := by
  induction events generalizing s with
  | nil => rfl
  | cons e rest ih => exact ih (keyEvent e s)

/-- The snapshot of a present event: the 256 display bytes (R226). -/
theorem framebuffer_getElem? (s : State) {j : Nat} (h : j < 256) :
    s.framebuffer[j]? = some (s.byteAt (s.cfg.displayBase + j)) := by
  simp [State.framebuffer, fbBytes, h]

end Sys2Proof.Machine
end

