-- ==== Sys2Proof/Tests/Slice0.lean ====
section
/-! SUPPORT. Tests: expected results from the spec's own examples and test vectors (95_test_vectors.md, whose row each test names),
and one witness for the hypotheses of every obligation that has any. -/

namespace Sys2Proof.Tests

open Sys2Proof Sys2Proof.Machine

/-! ### Helpers -/

/-- The reset state with one word at PROGRAM_BASE. -/
def ready (w : Nat) : State := State.reset.withFetchWord 16 w

/-- The reset state with one word at an address, fetched next. -/
def readyAt (addr w : Nat) : State := ({ State.reset with pc := BitVec.ofNat 16 addr }).withFetchWord 16 w

/-- A byte of memory set. -/
def poke (a : Nat) (b : Byte) (s : State) : State := { s with mem := Memory.set s.cfg s.mem a b }

/-- A byte that the host drives on port `rnd`. -/
def drawing (b : Byte) (s : State) : State := { s with io := { s.io with rndIn := [b] } }

/-- The call stack with `depth` valid entries, entry `k` holding `w`. -/
def stacked (depth : Fin 17) (k : Fin 16) (w : Word) (s : State) : State := { s with sp := depth, stack := s.stack.set k.val w k.isLt }

/-- The configuration with the display decoupled and the three quirks on. -/
def quirks : Config :=
  { Config.standard with
    decoupleDisplay := true, shiftCopiesSourceRegister := true, jumpWithOffsetMode := .indexed, loadStoreAdvancesIndex := true
    fx1eClearsVf := true }

/-- A state under that configuration. -/
def quirky (s : State) : State := { s with cfg := quirks }

/-- A check of the state a step leads to. -/
def after (r : Result) (check : State → Bool) : Bool :=
  match r with
  | .next t => check t
  | .fault _ | .refused _ => false

/-- A check of the fault a step ends in. -/
def faultsAt (r : Result) (addr : Nat) : Bool :=
  match r with
  | .fault (.addrOutOfRange a) => a == addr
  | .next _ | .refused _ => false

/-! ### WellFormed: the one ill-formed kind of term -/

/-- R73: X of BNNN is the top digit of NNN. -/
theorem test_ill_formed_offset_jump : Instr.wf (.jpOffset 0x210 0x3) = false := by decide

/-- R73. -/
theorem test_well_formed_offset_jump : Instr.wf (.jpOffset 0x210 0x2) = true := by decide

/-! ### Decoding, from words written out by the patterns of R76 (T-DEC and the examples of each rule) -/

/-- R76, family 0. -/
theorem test_decode_family_0 : decodeTableWord 16 0x00E0 = some .cls ∧ decodeTableWord 16 0x00EE = some .ret ∧
    decodeTableWord 16 0x0000 = none ∧ decodeTableWord 16 0x00E1 = none ∧ decodeTableWord 16 0x01E0 = none := by decide

/-- R76, the address format; R73 for 0xBFFF. -/
theorem test_decode_format_a : decodeTableWord 16 0x1204 = some (.jp 0x204) ∧ decodeTableWord 16 0x2208 = some (.call 0x208) ∧
    decodeTableWord 16 0xA300 = some (.ldI 0x300) ∧ decodeTableWord 16 0xBFFF = some (.jpOffset 0xFFF 0xF) := by decide

/-- R76, the immediate format; R73 for 0x3A7F. -/
theorem test_decode_format_i : decodeTableWord 16 0x3A7F = some (.seImm 0xA 0x7F) ∧
    decodeTableWord 16 0x4005 = some (.sneImm 0x0 0x05) ∧ decodeTableWord 16 0x6AFF = some (.ldImm 0xA 0xFF) ∧
    decodeTableWord 16 0x7A00 = some (.addImm 0xA 0x00) ∧ decodeTableWord 16 0xC00F = some (.rnd 0x0 0x0F) := by decide

/-- R76, families 5 and 9 (R77). -/
theorem test_decode_families_5_and_9 : decodeTableWord 16 0x5120 = some (.seReg 0x1 0x2) ∧ decodeTableWord 16 0x5121 = none ∧
    decodeTableWord 16 0x9120 = some (.sneReg 0x1 0x2) ∧ decodeTableWord 16 0x912F = none := by decide

/-- R76, family 8. -/
theorem test_decode_family_8 : decodeTableWord 16 0x8120 = some (.ldReg 0x1 0x2) ∧ decodeTableWord 16 0x8121 = some (.orReg 0x1 0x2) ∧
    decodeTableWord 16 0x8122 = some (.andReg 0x1 0x2) ∧ decodeTableWord 16 0x8123 = some (.xorReg 0x1 0x2) ∧
    decodeTableWord 16 0x8124 = some (.addReg 0x1 0x2) ∧ decodeTableWord 16 0x8125 = some (.subReg 0x1 0x2) ∧
    decodeTableWord 16 0x8126 = some (.shr 0x1 0x2) ∧ decodeTableWord 16 0x8127 = some (.subn 0x1 0x2) ∧
    decodeTableWord 16 0x812E = some (.shl 0x1 0x2) ∧ decodeTableWord 16 0x8128 = none ∧ decodeTableWord 16 0x812F = none := by decide

/-- R76, the draw format and family E; R73 for 0xD12A. -/
theorem test_decode_families_d_and_e : decodeTableWord 16 0xD12A = some (.drw 0x1 0x2 0xA) ∧
    decodeTableWord 16 0xE19E = some (.skp 0x1) ∧ decodeTableWord 16 0xE0A1 = some (.sknp 0x0) ∧
    decodeTableWord 16 0xE09F = none ∧ decodeTableWord 16 0xEFFF = none := by decide

/-- R76, family F; R73 for 0xF265. -/
theorem test_decode_family_f : decodeTableWord 16 0xF307 = some (.ldFromDt 0x3) ∧ decodeTableWord 16 0xF10A = some (.ldKey 0x1) ∧
    decodeTableWord 16 0xF315 = some (.ldToDt 0x3) ∧ decodeTableWord 16 0xF318 = some (.ldToSt 0x3) ∧
    decodeTableWord 16 0xF11E = some (.addI 0x1) ∧ decodeTableWord 16 0xF029 = some (.ldGlyph 0x0) ∧
    decodeTableWord 16 0xF033 = some (.ldDigits 0x0) ∧ decodeTableWord 16 0xF255 = some (.storeRegs 0x2) ∧
    decodeTableWord 16 0xF265 = some (.loadRegs 0x2) ∧ decodeTableWord 16 0xF0FF = none := by decide

/-! ### Control transfer and skips (T-FLOW) -/

/-- F1. -/
theorem test_jp : after (step (readyAt 0x20A 0x1204)) (fun t => t.pc == 0x204) = true := by decide

/-- F4. -/
theorem test_call : after (step (readyAt 0x204 0x2208)) (fun t => t.pc == 0x208 && t.sp == 1 && t.stack[0] == 0x206) = true := by decide

/-- F6. -/
theorem test_call_on_full_stack : after (step (stacked 16 15 0 (ready 0x2300)))
    (fun t => t.pc == 0x300 && t.sp == 16 && t.io.out == [.diag ⟨.stackOverflow, 0x2300, 0x200⟩]) = true := by decide

/-- F8. -/
theorem test_ret : after (step (stacked 2 1 0x0FFE (readyAt 0x300 0x00EE))) (fun t => t.pc == 0x0FFE && t.sp == 1) = true := by decide

/-- F9. -/
theorem test_ret_on_empty_stack : after (step (readyAt 0x20C 0x00EE))
    (fun t => t.pc == 0 && t.sp == 0 && t.io.out == [.diag ⟨.stackUnderflow, 0x00EE, 0x20C⟩]) = true := by decide

/-- F10 and F11. -/
theorem test_se_imm : after (step (readyAt 0x208 0x3100)) (fun t => t.pc == 0x20C) = true ∧
    after (step ((readyAt 0x208 0x3100).setReg 1 4)) (fun t => t.pc == 0x20A) = true := by decide

/-- F13 and F14. -/
theorem test_sne_imm : after (step ((ready 0x4005).setReg 0 5)) (fun t => t.pc == 0x202) = true ∧
    after (step ((ready 0x4006).setReg 0 5)) (fun t => t.pc == 0x204) = true := by decide

/-- F15 and F16. -/
theorem test_se_reg : after (step (((readyAt 0x300 0x5230).setReg 2 7).setReg 3 7)) (fun t => t.pc == 0x304) = true ∧
    after (step (((readyAt 0x300 0x5230).setReg 2 7).setReg 3 8)) (fun t => t.pc == 0x302) = true := by decide

/-- F19 and F21. -/
theorem test_sne_reg : after (step (((readyAt 0x300 0x9230).setReg 2 7).setReg 3 8)) (fun t => t.pc == 0x304) = true ∧
    after (step ((ready 0x9AA0).setReg 0xA 0x33)) (fun t => t.pc == 0x202) = true := by decide

/-- F22 and F24. -/
theorem test_jp_offset_legacy : after (step (((ready 0xB210).setReg 0 4).setReg 2 0x10)) (fun t => t.pc == 0x214) = true ∧
    after (step ((ready 0xBFFF).setReg 0 0xFF)) (fun t => t.pc == 0x10FE) = true := by decide

/-- F23. -/
theorem test_jp_offset_indexed :
    after (step (quirky (((ready 0xB210).setReg 0 4).setReg 2 0x10))) (fun t => t.pc == 0x220) = true := by decide

/-! ### Load, arithmetic, logic, shift, random (T-ALU) -/

/-- A2. -/
theorem test_ld_imm : after (step ((ready 0x6FAB).setReg vf 1)) (fun t => t.reg vf == 0xAB) = true := by decide

/-- A4. -/
theorem test_add_imm_wraps : after (step ((ready 0x7102).setReg 1 0xFF)) (fun t => t.reg 1 == 1 && t.reg vf == 0) = true := by decide

/-- A7. -/
theorem test_ld_reg : after (step ((ready 0x8230).setReg 3 0xAB)) (fun t => t.reg 2 == 0xAB && t.reg 3 == 0xAB) = true := by decide

/-- A8. -/
theorem test_or : after (step ((((ready 0x8011).setReg 0 0xF0).setReg 1 0x0F).setReg vf 1))
    (fun t => t.reg 0 == 0xFF && t.reg vf == 1) = true := by decide

/-- A8b. -/
theorem test_and : after (step ((((ready 0x8012).setReg 0 0xF0).setReg 1 0x3C).setReg vf 1))
    (fun t => t.reg 0 == 0x30 && t.reg vf == 1) = true := by decide

/-- A9. -/
theorem test_xor : after (step ((((ready 0x8013).setReg 0 0xF0).setReg 1 0x3C).setReg vf 1))
    (fun t => t.reg 0 == 0xCC && t.reg vf == 1) = true := by decide

/-- A11 and A12. -/
theorem test_add_reg : after (step (((ready 0x8014).setReg 0 0xFF).setReg 1 1)) (fun t => t.reg 0 == 0 && t.reg vf == 1) = true ∧
    after (step (((ready 0x8014).setReg 0 0xFE).setReg 1 1)) (fun t => t.reg 0 == 0xFF && t.reg vf == 0) = true := by decide

/-- A15 and A16. -/
theorem test_add_reg_with_vf : after (step (((ready 0x80F4).setReg 0 0x10).setReg vf 1)) (fun t => t.reg 0 == 0x11 && t.reg vf == 0) = true ∧
    after (step (((ready 0x8F14).setReg vf 0xF0).setReg 1 0x20)) (fun t => t.reg vf == 0x10 && t.reg 1 == 0x20) = true := by decide

/-- A18 and A19. -/
theorem test_sub : after (step (((ready 0x8015).setReg 0 5).setReg 1 7)) (fun t => t.reg 0 == 0xFE && t.reg vf == 0) = true ∧
    after (step (((ready 0x8015).setReg 0 0x42).setReg 1 0x42)) (fun t => t.reg 0 == 0 && t.reg vf == 1) = true := by decide

/-- A21. -/
theorem test_sub_into_vf : after (step (((ready 0x8F15).setReg vf 5).setReg 1 7)) (fun t => t.reg vf == 0xFE) = true := by decide

/-- A22 and A23. -/
theorem test_shr : after (step (((ready 0x8016).setReg 0 5).setReg 1 8)) (fun t => t.reg 0 == 2 && t.reg vf == 1) = true ∧
    after (step (quirky (((ready 0x8016).setReg 0 5).setReg 1 8))) (fun t => t.reg 0 == 4 && t.reg vf == 0 && t.reg 1 == 8) = true := by
  decide

/-- A28 and A29. -/
theorem test_subn : after (step (((ready 0x8017).setReg 0 5).setReg 1 7)) (fun t => t.reg 0 == 2 && t.reg vf == 1) = true ∧
    after (step (((ready 0x8017).setReg 0 7).setReg 1 5)) (fun t => t.reg 0 == 0xFE && t.reg vf == 0) = true := by decide

/-- A31 and A32. -/
theorem test_shl : after (step (((ready 0x801E).setReg 0 0x81).setReg 1 0x40)) (fun t => t.reg 0 == 2 && t.reg vf == 1) = true ∧
    after (step (quirky (((ready 0x801E).setReg 0 0x81).setReg 1 0x40))) (fun t => t.reg 0 == 0x80 && t.reg vf == 0) = true := by decide

/-- A36. -/
theorem test_rnd : after (step (drawing 0xA7 (ready 0xC00F))) (fun t => t.reg 0 == 7) = true := by decide

/-! ### Index register and memory (T-IDX) -/

/-- M2. -/
theorem test_ld_i : after (step ((ready 0xAFFF).setIndex 0x1234)) (fun t => t.i == 0x0FFF) = true := by decide

/-- M4, M5. -/
theorem test_add_i_in_range : after (step ((((ready 0xF11E).setIndex 0x300).setReg 1 0x10).setReg vf 1))
      (fun t => t.i == 0x310 && t.reg vf == 1) = true ∧
    after (step (quirky ((((ready 0xF11E).setIndex 0x300).setReg 1 0x10).setReg vf 1))) (fun t => t.i == 0x310 && t.reg vf == 0) = true := by
  decide

/-- M6, M8. -/
theorem test_add_i_beyond : after (step (((ready 0xF11E).setIndex 0xFFF).setReg 1 1)) (fun t => t.i == 0x1000 && t.reg vf == 1) = true ∧
    after (step (((ready 0xF11E).setIndex 0xFFFF).setReg 1 2)) (fun t => t.i == 1 && t.reg vf == 1) = true := by decide

/-- M10, M14. -/
theorem test_ld_glyph : after (step ((ready 0xF029).setReg 0 0x0A)) (fun t => t.i == 0x82) = true ∧
    after (step ((ready 0xF029).setReg 0 0xFF)) (fun t => t.i == 0x54B) = true := by decide

/-- M15. -/
theorem test_ld_digits : after (step (((ready 0xF033).setReg 0 0xFE).setIndex 0x300))
    (fun t => t.byteAt 0x300 == 2 && t.byteAt 0x301 == 5 && t.byteAt 0x302 == 4 && t.i == 0x300) = true := by decide

/-- M21. -/
theorem test_ld_digits_beyond : faultsAt (step (((ready 0xF033).setReg 0 0x7B).setIndex 0xFFE)) 0x1000 = true := by decide

/-- M22, M23. -/
theorem test_store_regs :
    after (step (((((ready 0xF255).setReg 0 0x11).setReg 1 0x22).setReg 2 0x33).setReg 3 0x44 |>.setIndex 0x400))
      (fun t => t.byteAt 0x400 == 0x11 && t.byteAt 0x402 == 0x33 && t.byteAt 0x403 == 0 && t.i == 0x400) = true ∧
    after (step (quirky (((ready 0xF255).setReg 0 0x11).setIndex 0x400))) (fun t => t.byteAt 0x400 == 0x11 && t.i == 0x403) = true := by
  decide

/-- M26. -/
theorem test_store_regs_beyond : faultsAt (step ((ready 0xF155).setIndex 0xFFF)) 0x1000 = true := by decide

/-- M28, M29. -/
theorem test_load_regs :
    after (step (poke 0x300 2 (poke 0x301 5 (poke 0x302 4 (poke 0x303 9 (((ready 0xF265).setReg 3 0x77).setIndex 0x300))))))
      (fun t => t.reg 0 == 2 && t.reg 1 == 5 && t.reg 2 == 4 && t.reg 3 == 0x77 && t.i == 0x300) = true ∧
    after (step (quirky ((ready 0xF265).setIndex 0x300))) (fun t => t.i == 0x303) = true := by decide

/-- M30. -/
theorem test_load_regs_font : after (step ((ready 0xF165).setIndex 0x50)) (fun t => t.reg 0 == 0xF0 && t.reg 1 == 0x90) = true := by
  decide

/-! ### Display (T-DRW) -/

/-- G2: decoupled, so that no snapshot has to be compared. -/
theorem test_cls : after (step (quirky (poke 0xF00 0xFF (poke 0xFFF 1 (ready 0x00E0)))))
    (fun t => t.byteAt 0xF00 == 0 && t.byteAt 0xFFF == 0 && t.presents == 0) = true := by decide +kernel

/-- G5 and G9: clipping at the right edge; a collision. -/
theorem test_drw_clips : after (step (quirky (poke 0x300 0xFF (((ready 0xD011).setReg 0 0x3C).setIndex 0x300))))
    (fun t => t.byteAt 0xF07 == 0x0F && t.byteAt 0xF00 == 0 && t.byteAt 0xF08 == 0 && t.reg vf == 0) = true := by decide +kernel

/-- G9. -/
theorem test_drw_collides : after (step (poke 0x300 0xF0 (poke 0xF00 0x80 ((ready 0xD011).setIndex 0x300))))
    (fun t => t.byteAt 0xF00 == 0x70 && t.reg vf == 1 && t.presents == 1) = true := by decide +kernel

/-! ### Keypad and timers (T-KEY) and the other agents -/

/-- K1 and K3. -/
theorem test_skp : after (step (((ready 0xE09E).setReg 0 5).setKey 5 true)) (fun t => t.pc == 0x204) = true ∧
    after (step (((ready 0xE09E).setReg 0 0x10).setKey 0 true))
      (fun t => t.pc == 0x202 && t.io.out == [.diag ⟨.keyIndexOutOfRange, 0xE09E, 0x200⟩]) = true := by decide

/-- K4 and K6. -/
theorem test_sknp : after (step ((ready 0xE0A1).setReg 0 5)) (fun t => t.pc == 0x204) = true ∧
    after (step ((ready 0xE0A1).setReg 0 0xFF))
      (fun t => t.pc == 0x202 && t.io.out == [.diag ⟨.keyIndexOutOfRange, 0xE0A1, 0x200⟩]) = true := by decide

/-- K11. -/
theorem test_ld_key_waits : after (step ((ready 0xF10A).setKey 3 true)) (fun t => t.pc == 0x200 && t.aks == .awaitingPress) = true := by
  decide

/-- K12. -/
theorem test_ld_key_delivers : after (step (((ready 0xFF0A).setReg vf 1).setAks (.captured 0)))
    (fun t => t.pc == 0x202 && t.aks == .idle && t.reg vf == 0) = true := by decide

/-- K14. -/
theorem test_ld_from_dt : after (step ((ready 0xF307).setDt 0x2A)) (fun t => t.reg 3 == 0x2A && t.dt == 0x2A) = true := by decide

/-- K15. -/
theorem test_ld_to_dt : after (step ((ready 0xF315).setReg 3 0x3C)) (fun t => t.dt == 0x3C && t.st == 0) = true := by decide

/-- K16. -/
theorem test_ld_to_st : after (step ((ready 0xF318).setReg 3 5)) (fun t => t.st == 5 && t.dt == 0) = true := by decide

/-- E2, E3, E5. -/
theorem test_key_events : (keyPressed 7 (State.reset.setAks .awaitingPress)).aks = .captured 7 ∧
    (keyPressed 2 (State.reset.setAks (.captured 7))).aks = .captured 7 ∧
    (keyReleased 7 (State.reset.setAks (.captured 7))).aks = .captured 7 := by decide

/-- E9 and E11. -/
theorem test_tick : (tick (State.reset.setSt 1)).st = 0 ∧ (tick (State.reset.setSt 1)).dt = 0 ∧
    (tick (State.reset.setDt 0xFF)).dt = 0xFE := by decide

/-- X8: the second byte of the fetch is out of range. -/
theorem test_fetch_beyond : faultsAt (step (readyAt 0xFFF 0x1200)) 0x1000 = true := by decide

/-- X2. -/
theorem test_unknown_word : after (step (ready 0xFFFF))
    (fun t => t.pc == 0x202 && t.io.out == [.diag ⟨.unknownOpcode, 0xFFFF, 0x200⟩]) = true := by decide

/-- T-SCHED, its rule for the timer gate (period 1000/60): due at 17 units and not at 16. -/
theorem test_timer_gate : gateDue Config.standard 60 100 117 = true ∧ gateDue Config.standard 60 100 116 = false := by decide

/-- T-SCHED, iteration 8: all three gates fire at 134, in the decoupled display mode. -/
theorem test_iteration_fires_three_gates :
    after (iteration [] 134 false (quirky { (readyAt 0x204 0x1204).setDt 2 with gates := ⟨117, 117, 100⟩ }))
      (fun t => t.gates == ⟨134, 134, 134⟩ && t.pc == 0x204 && t.dt == 1 && t.presents == 1) = true := by decide

/-- T-SCHED, its last sentence: with the display not decoupled `lf_disp` stays and nothing is presented. -/
theorem test_iteration_not_decoupled :
    after (iteration [] 300 false { (readyAt 0x204 0x1204).setDt 0 with gates := ⟨185, 185, 100⟩ })
      (fun t => t.gates == ⟨300, 300, 100⟩ && t.dt == 0 && t.presents == 0) = true := by decide

/-! ### Witnesses: a concrete state and operands that meet all hypotheses of an obligation, clause by clause -/

/-- A sprite of the font lies outside the display region. -/
theorem font_sprite_outside_display : (State.reset.setIndex 0x50).SpriteOutsideDisplay 5 := by
  intro r hr h
  have h1 : 0xF00 ≤ 0x50 + r := h.1
  omega

theorem witness_DecodeOfEncode : Instr.wf (.jpOffset 0xFFF 0xF) = true := by decide

theorem witness_EncodeOfDecode : decodeWord 0x812E = .ok (.shl 0x1 0x2) := rfl

theorem witness_UnknownWordOnlyAdvancesAndLogs :
    fetch State.reset = .ok 0x0000 ∧ ∀ r ∈ opcodeTable, r.selects 0x0000 = false := ⟨rfl, by decide⟩

/-- An instruction with no turn and with the turn Execute, and one queue for each other kind of turn. -/
theorem witness_StepRunsTheDecodedInstruction : (ready 0x6005).io.stopped = false ∧
    (ready 0x6005).pc.toNat + 1 < (ready 0x6005).cfg.memSize ∧
    decode [(ready 0x6005).byteAt 0x200, (ready 0x6005).byteAt 0x201] = .ok (.ldImm 0x0 0x05, []) ∧
    (ready 0x6005).io.turns = [] ∧ ((ready 0x6005).setTurns [.act .execute]).io.turns = .act .execute :: [] ∧
    (State.reset.setTurns [.act (.key (.down 15))]).io.turns = .act (.key (.down 15)) :: [] ∧
    (State.reset.setTurns [.act (.key (.up 0))]).io.turns = .act (.key (.up 0)) :: [] ∧
    (State.reset.setTurns [.act .tick]).io.turns = .act .tick :: [] ∧
    (State.reset.setTurns [.act .refresh]).io.turns = .act .refresh :: [] ∧ State.reset.cfg.decoupleDisplay = false ∧
    ((quirky State.reset).setTurns [.act .refresh]).cfg.decoupleDisplay = true ∧
    (State.reset.setTurns [.act .stop]).io.turns = .act .stop :: [] ∧
    (State.reset.setTurns [.iteration [.down 7] 2 true]).io.turns = .iteration [.down 7] 2 true :: [] :=
  ⟨rfl, by decide, rfl, rfl, rfl, rfl, rfl, rfl, rfl, rfl, rfl, rfl, rfl⟩

/-- At the top of memory. -/
theorem witness_ReadGivesLatestWrite :
    Memory.wf State.reset.cfg State.reset.mem = true ∧ 4095 < State.reset.cfg.memSize := by decide

/-- Below, at and one short of MEM_SIZE. -/
theorem witness_AccessFaultsExactlyBeyondMemory : 4095 < State.reset.cfg.memSize ∧ State.reset.cfg.memSize ≤ 4096 ∧
    (State.reset.setPc 0x1000).cfg.memSize ≤ (State.reset.setPc 0x1000).pc.toNat ∧
    (State.reset.setPc 0xFFF).pc.toNat + 1 = (State.reset.setPc 0xFFF).cfg.memSize ∧
    (State.reset.setPc 0xFFE).pc.toNat + 1 < (State.reset.setPc 0xFFE).cfg.memSize := by decide

/-- FX55 and FX33 reaching both bytes of the next word, FX55 reaching its first byte alone, and code at the end of the display
region with a sprite outside it. -/
theorem witness_StoreIsSeenByNextFetch : Memory.wf State.reset.cfg State.reset.mem = true ∧
    0x202 = State.reset.pc.toNat + 2 ∧ 0x202 + 1 < 65536 ∧ 0x202 + 1 < Config.standard.memSize ∧
    (State.reset.setIndex 0x202).i.toNat + (0x1 : Nibble).toNat < Config.standard.memSize ∧
    (State.reset.setIndex 0x202).i.toNat + (0x0 : Nibble).toNat < Config.standard.memSize ∧
    (State.reset.setIndex 0x201).i.toNat + 2 < Config.standard.memSize ∧
    0xFFE = (State.reset.setPc 0xFFC).pc.toNat + 2 ∧ 0xFFE + 1 < Config.standard.memSize ∧ State.reset.cfg.wf = true ∧
    inDisplay Config.standard 0xFFE ∧ inDisplay Config.standard (0xFFE + 1) ∧ ¬ inDisplay Config.standard 0x202 ∧
    ((0x5 : Nibble) = 0 ∨ (State.reset.setIndex 0x50).i.toNat + (0x5 : Nibble).toNat ≤ Config.standard.memSize) ∧
    (State.reset.setIndex 0x50).SpriteOutsideDisplay (0x5 : Nibble).toNat := by
  refine ⟨rfl, by decide, by decide, by decide, by decide, by decide, by decide, by decide, by decide, by decide, ?_, ?_, ?_,
    by decide, font_sprite_outside_display⟩ <;> unfold inDisplay <;> decide

/-- A stack with room for one more, and a full one. -/
theorem witness_CallPushesAndJumps :
    (stacked 15 0 0x202 State.reset).sp.val < 16 ∧ (stacked 16 0 0x202 State.reset).sp.val = 16 := by decide

/-- One entry, sixteen entries, none. -/
theorem witness_ReturnPopsIntoPc : (stacked 1 0 0x202 State.reset).sp.val = 0 + 1 ∧
    (stacked 16 0 0x202 State.reset).sp.val = 15 + 1 ∧ State.reset.sp.val = 0 := by decide

theorem witness_CallThenReturnComesBack : (stacked 15 0 0x202 State.reset).sp.val < 16 := by decide

/-- Both modes. -/
theorem witness_OffsetJumpAddsSelectedRegister : Instr.wf (.jpOffset 0x210 0x2) = true ∧
    State.reset.cfg.jumpWithOffsetMode = .legacy ∧ (quirky State.reset).cfg.jumpWithOffsetMode = .indexed := by decide

theorem witness_AddSetsCarry : (0xE : Nibble) ≠ vf := by decide

theorem witness_SubtractsSetNoBorrow : (0xE : Nibble) ≠ vf := by decide

/-- Both settings of the shift quirk. -/
theorem witness_ShiftsByOne : (0xE : Nibble) ≠ vf ∧
    (8 = if ((quirky State.reset).setReg 1 8).cfg.shiftCopiesSourceRegister = true then (((quirky State.reset).setReg 1 8).reg 1).toNat
      else (((quirky State.reset).setReg 1 8).reg 0).toNat) ∧
    (0 = if (State.reset.setReg 1 8).cfg.shiftCopiesSourceRegister = true then ((State.reset.setReg 1 8).reg 1).toNat
      else ((State.reset.setReg 1 8).reg 0).toNat) := by decide

/-- A byte on port `rnd`, and none. -/
theorem witness_RandomIsMaskedDraw : (drawing 0xA7 State.reset).io.rndIn = 0xA7 :: [] ∧ State.reset.io.rndIn = [] := by decide

/-- The last three bytes of memory. -/
theorem witness_DigitsAreStored : Memory.wf State.reset.cfg (State.reset.setIndex 0xFFD).mem = true ∧
    (State.reset.setIndex 0xFFD).i.toNat + 2 < Config.standard.memSize := by decide

/-- The last sixteen bytes of memory, and the last one. -/
theorem witness_RegistersAreStored : Memory.wf State.reset.cfg (State.reset.setIndex 0xFF0).mem = true ∧
    (State.reset.setIndex 0xFF0).i.toNat + (0xF : Nibble).toNat < Config.standard.memSize ∧
    (State.reset.setIndex 0xFFF).i.toNat + (0x0 : Nibble).toNat < Config.standard.memSize := by decide

theorem witness_RegistersAreLoaded :
    (State.reset.setIndex 0xFF0).i.toNat + (0xF : Nibble).toNat < Config.standard.memSize ∧
    (State.reset.setIndex 0xFFF).i.toNat + (0x0 : Nibble).toNat < Config.standard.memSize := by decide

/-- The third digit alone beyond memory; one register beyond; `I` itself beyond. -/
theorem witness_IndexedAccessBeyondMemoryFaults : Config.standard.memSize ≤ (State.reset.setIndex 0xFFE).i.toNat + 2 ∧
    Config.standard.memSize ≤ (State.reset.setIndex 0xFFF).i.toNat + (0x1 : Nibble).toNat ∧
    Config.standard.memSize ≤ (State.reset.setIndex 0x1000).i.toNat + (0x0 : Nibble).toNat := by decide

theorem witness_ClearZeroesTheFramebuffer :
    State.reset.cfg.wf = true ∧ Memory.wf State.reset.cfg State.reset.mem = true := by decide

/-- No row with `I` beyond memory, and fifteen rows that end with memory. -/
theorem witness_DrawCompletesAndChangesOnlyTheDisplay : State.reset.cfg.wf = true ∧
    ((0x0 : Nibble) = 0 ∨ (State.reset.setIndex 0x1000).i.toNat + (0x0 : Nibble).toNat ≤ Config.standard.memSize) ∧
    ((0xF : Nibble) = 0 ∨ (State.reset.setIndex 0xFF1).i.toNat + (0xF : Nibble).toNat ≤ Config.standard.memSize) := by decide

theorem witness_DrawTogglesTheLitPixels : State.reset.cfg.wf = true ∧ Memory.wf State.reset.cfg State.reset.mem = true ∧
    ((0x5 : Nibble) = 0 ∨ (State.reset.setIndex 0x50).i.toNat + (0x5 : Nibble).toNat ≤ Config.standard.memSize) ∧
    (State.reset.setIndex 0x50).SpriteOutsideDisplay (0x5 : Nibble).toNat :=
  ⟨by decide, by decide, by decide, font_sprite_outside_display⟩

theorem witness_DrawTwiceRestoresPixels : State.reset.cfg.wf = true ∧ Memory.wf State.reset.cfg State.reset.mem = true ∧
    (0x1 : Nibble) ≠ vf ∧ (0x2 : Nibble) ≠ vf ∧
    ((0x5 : Nibble) = 0 ∨ (State.reset.setIndex 0x50).i.toNat + (0x5 : Nibble).toNat ≤ Config.standard.memSize) ∧
    (State.reset.setIndex 0x50).SpriteOutsideDisplay (0x5 : Nibble).toNat :=
  ⟨by decide, by decide, by decide, by decide, by decide, font_sprite_outside_display⟩

/-- The last column and the last row. -/
theorem witness_RowLoopHasItsClosedForm :
    State.reset.cfg.wf = true ∧ Memory.wf State.reset.cfg State.reset.mem = true ∧ 63 < 64 ∧ 30 + 1 < 32 := by decide

/-- The second row alone beyond memory, and no row at all. -/
theorem witness_DrawReadsEveryRow : State.reset.cfg.wf = true ∧ (0x2 : Nibble) ≠ 0 ∧
    Config.standard.memSize ≤ (State.reset.setIndex 0xFFF).i.toNat + (0x2 : Nibble).toNat - 1 ∧ (0x0 : Nibble) = 0 := by decide

/-- An instruction that presents and one that does not. -/
theorem witness_OnlyClearAndDrawPresent : (∃ t, exec (.drw 0 0 0) State.reset = .next t) ∧
    ∃ t, exec (.jp 0x300) State.reset = .next t := ⟨⟨_, rfl⟩, ⟨_, rfl⟩⟩

/-- The last key; the first index that names none; the last. -/
theorem witness_KeySkips : (State.reset.setReg 0 15).reg 0 = keyByte 15 ∧ ((State.reset.setReg 0 16).reg 0).toNat > 15 ∧
    ((State.reset.setReg 0 255).reg 0).toNat > 15 := by decide

theorem witness_AwaitKeyInItsThreeStates : State.reset.aks = .idle ∧
    (State.reset.setAks .awaitingPress).aks = .awaitingPress ∧ (State.reset.setAks (.captured 15)).aks = .captured 15 := by decide

/-- No gate due; the instruction gate alone; all three; and all but the display gate where it is not decoupled. -/
theorem witness_PollFiresEachDueGateOnce : (∃ t, poll 1 (quirky State.reset) = .next t) ∧
    (∃ t, poll 2 (quirky State.reset) = .next t) ∧ (∃ t, poll 34 (quirky State.reset) = .next t) ∧
    ∃ t, poll 34 State.reset = .next t := ⟨⟨_, rfl⟩, ⟨_, rfl⟩, ⟨_, rfl⟩, ⟨_, rfl⟩⟩

/-- Just before and just at the instruction gate's period of 2, with an invocation that answers and one that faults; and long after
one display period, in either display mode. -/
theorem witness_IterationDrainsThenPolls : State.reset.io.now ≤ 1 ∧ State.reset.io.now ≤ 300 ∧
    (1 - State.reset.gates.insn) * Config.standard.instructionsPerSecond < Config.standard.ticksPerSecond ∧
    (2 - State.reset.gates.insn) * Config.standard.instructionsPerSecond ≥ Config.standard.ticksPerSecond ∧
    (300 - State.reset.gates.insn) * Config.standard.instructionsPerSecond ≥ Config.standard.ticksPerSecond ∧
    (∃ t, execute (([KeyEvent.down 7].foldl (fun v e => keyEvent e v) (ready 0x6005)).sampleNow 2) = .next t) ∧
    (∃ t, execute (([KeyEvent.down 7].foldl (fun v e => keyEvent e v) (ready 0x6005)).sampleNow 300) = .next t) ∧
    (∃ t, execute (([KeyEvent.down 7].foldl (fun v e => keyEvent e v) (quirky (ready 0x6005))).sampleNow 300) = .next t) ∧
    execute (([KeyEvent.down 7].foldl (fun v e => keyEvent e v) (State.reset.setPc 0x1000)).sampleNow 2) =
      .fault (.addrOutOfRange 0x1000) :=
  ⟨by decide, by decide, by decide, by decide, by decide, ⟨_, rfl⟩, ⟨_, rfl⟩, ⟨_, rfl⟩, rfl⟩

theorem witness_TickSeesTheTimerJustWritten : fetch (ready 0xF315) = .ok (encode (.ldToDt 0x3)) ∧
    (17 - (ready 0xF315).gates.insn) * (ready 0xF315).cfg.instructionsPerSecond ≥ (ready 0xF315).cfg.ticksPerSecond ∧
    (17 - (ready 0xF315).gates.timer) * (ready 0xF315).cfg.timerFrequency ≥ (ready 0xF315).cfg.ticksPerSecond :=
  ⟨rfl, by decide, by decide⟩

/-- An iteration that answers a next state without `quit` and with it, one that faults, one that is refused; a stopped machine. -/
theorem witness_QuitEndsTheLoop : (∃ t, iteration [.down 7] 34 false State.reset = .next t) ∧
    (∃ t, iteration [.down 7] 34 true State.reset = .next t) ∧
    iteration [] 2 false (State.reset.setPc 0x1000) = .fault (.addrOutOfRange 0x1000) ∧
    iteration [] 4 false (State.reset.sampleNow 5) = .refused (.clockRanBackwards 5 4) ∧
    (stopLoop State.reset).io.stopped = true := ⟨⟨_, rfl⟩, ⟨_, rfl⟩, rfl, rfl, rfl⟩

theorem witness_ClockRunningBackwardsIsRefused :
    ((State.reset.sampleNow 5).setTurns [.iteration [] 4 false]).io.stopped = false ∧
    ((State.reset.sampleNow 5).setTurns [.iteration [] 4 false]).io.turns = .iteration [] 4 false :: [] ∧
    4 < ((State.reset.sampleNow 5).setTurns [.iteration [] 4 false]).io.now := by decide

theorem witness_StepKeepsInvariant : State.reset.Inv ∧ ∃ t, step State.reset = .next t :=
  ⟨⟨by decide, by decide, by decide, by decide, by decide⟩, ⟨_, rfl⟩⟩

/-- A state that waits for a key. -/
theorem witness_StepKeepsAwaitingAtKeyInstruction : ((ready 0xF10A).setAks .awaitingPress).AwaitsAtKeyInstr ∧
    ((ready 0xF10A).setAks .awaitingPress).aks ≠ .idle ∧ ∃ t, step ((ready 0xF10A).setAks .awaitingPress) = .next t :=
  ⟨fun _ => ⟨0x1, rfl⟩, by decide, ⟨_, rfl⟩⟩

theorem witness_StepKeepsConfiguration : ∃ t, step State.reset = .next t := ⟨_, rfl⟩

theorem witness_StepOnlyAppendsOutput : ∃ t, step State.reset = .next t := ⟨_, rfl⟩

theorem witness_BootMeetsInvariant : ∃ s, boot Config.standard [0x12, 0x00] = .ok s := ⟨_, rfl⟩

/-- A program that fills memory from PROGRAM_BASE to its end is admitted, one byte more is not; and the last byte of the font. -/
theorem witness_BootPlacesFontAndProgram : (∃ s, boot Config.standard [0x12, 0x00] = .ok s) ∧
    loadAdmitted Config.standard 3584 = true ∧ loadAdmitted Config.standard 3585 = false ∧ 1 < [(0x12 : Byte), 0x00].length ∧
    79 < 80 ∧ ¬ (Config.standard.programBase ≤ 0xA0 ∧ 0xA0 < Config.standard.programBase + 2) ∧
    ¬ (Config.standard.fontBase ≤ 0xA0 ∧ 0xA0 < Config.standard.fontBase + 80) := ⟨⟨_, rfl⟩, by decide⟩

theorem witness_OnlyFourInstructionsWriteMemory : (∃ t, exec (.loadRegs 0xF) State.reset = .next t) ∧
    Instr.loadRegs 0xF ≠ .cls ∧ (∀ x y n, Instr.loadRegs 0xF ≠ .drw x y n) ∧ (∀ x, Instr.loadRegs 0xF ≠ .ldDigits x) ∧
    ∀ x, Instr.loadRegs 0xF ≠ .storeRegs x := ⟨⟨_, rfl⟩, nofun, nofun, nofun, nofun⟩

/-- FX15 for the clauses about the others, 6XNN for all of them. -/
theorem witness_WritersOfTimersStackAndKeypad : (∃ t, exec (.ldImm 0x0 0x05) State.reset = .next t) ∧
    (∀ x, Instr.ldImm 0x0 0x05 ≠ .ldToDt x) ∧ (∀ x, Instr.ldImm 0x0 0x05 ≠ .ldToSt x) ∧ Instr.ldImm 0x0 0x05 ≠ .ret ∧
    (∀ a, Instr.ldImm 0x0 0x05 ≠ .call a) ∧ (∀ x, Instr.ldImm 0x0 0x05 ≠ .ldKey x) ∧
    (∃ t, exec (.ldToDt 0x0) State.reset = .next t) ∧ ∀ x, Instr.ldToDt 0x0 ≠ .ldToSt x :=
  ⟨⟨_, rfl⟩, nofun, nofun, nofun, nofun, nofun, ⟨_, rfl⟩, nofun⟩

/-- FX55 with the index quirk off, and an instruction that never writes `I` with it on. -/
theorem witness_WritersOfIndex : (∃ t, exec (.storeRegs 0x0) State.reset = .next t) ∧
    (∀ a, Instr.storeRegs 0x0 ≠ .ldI a) ∧ (∀ x, Instr.storeRegs 0x0 ≠ .addI x) ∧ (∀ x, Instr.storeRegs 0x0 ≠ .ldGlyph x) ∧
    State.reset.cfg.loadStoreAdvancesIndex = false ∧ (∃ t, exec .ret (quirky State.reset) = .next t) ∧
    (∀ x, Instr.ret ≠ .storeRegs x) ∧ ∀ x, Instr.ret ≠ .loadRegs x :=
  ⟨⟨_, rfl⟩, nofun, nofun, nofun, rfl, ⟨_, rfl⟩, nofun, nofun⟩

theorem witness_OnlyDataAccessesFault : State.reset.cfg.wf = true ∧ (∀ x y n, Instr.cls ≠ .drw x y n) ∧
    (∀ x, Instr.cls ≠ .ldDigits x) ∧ (∀ x, Instr.cls ≠ .storeRegs x) ∧ ∀ x, Instr.cls ≠ .loadRegs x :=
  ⟨by decide, nofun, nofun, nofun, nofun⟩

/-- Each of the listed cases, and an instruction outside them. -/
theorem witness_DiagnosticsOnlyWhereListed : (∃ t, exec (.call 0x300) (stacked 16 0 0x202 State.reset) = .next t) ∧
    (∃ t, exec .ret State.reset = .next t) ∧ (∃ t, exec (.skp 0x0) (State.reset.setReg 0x0 16) = .next t) ∧
    (∃ t, exec (.sknp 0x0) (State.reset.setReg 0x0 16) = .next t) ∧ ∃ t, exec (.jp 0x300) State.reset = .next t :=
  ⟨⟨_, rfl⟩, ⟨_, rfl⟩, ⟨_, rfl⟩, ⟨_, rfl⟩, ⟨_, rfl⟩⟩

/-- F2: a jump to itself. -/
theorem witness_ParkedStaysParked : (ready 0x1200).Parked := ⟨0x200, by decide, by decide, rfl, rfl, rfl⟩

end Sys2Proof.Tests
end

section
/-! O48: every step keeps `State.Inv`. The invariant reads the configuration, memory, the gates and the clock alone, so each
update either leaves all four as they were or is one of the few below: an executor invocation (which keeps memory canonical),
a sample of `now`, and the gates' timestamps. -/

namespace Sys2Proof.Machine

variable {s t : State} {now : Nat}

/-! ### What the updates keep -/

/-- The invariant depends on these four parts of the state and on no other. -/
theorem State.Inv.congr (h : s.Inv) (hcfg : t.cfg = s.cfg) (hmem : t.mem = s.mem) (hgates : t.gates = s.gates)
    (hnow : t.io.now = s.io.now) : t.Inv where
  config := by rw [hcfg]; exact h.config
  memory := by rw [hcfg, hmem]; exact h.memory
  insnGate := by rw [hgates, hnow]; exact h.insnGate
  timerGate := by rw [hgates, hnow]; exact h.timerGate
  dispGate := by rw [hgates, hnow]; exact h.dispGate

/-- Whatever meets the frame of an executor invocation keeps the invariant. -/
theorem ExecFrame.keeps_inv (k : ExecFrame s t) (h : s.Inv) : t.Inv where
  config := by rw [k.cfg]; exact h.config
  memory := by rw [k.cfg]; exact k.canonical h.memory
  insnGate := by rw [k.gates, k.now]; exact h.insnGate
  timerGate := by rw [k.gates, k.now]; exact h.timerGate
  dispGate := by rw [k.gates, k.now]; exact h.dispGate

/-- The clock may move forward (R220). -/
theorem State.Inv.sampleNow (h : s.Inv) (hnow : s.io.now ≤ now) : (s.sampleNow now).Inv :=
  ⟨h.config, h.memory, h.insnGate.trans hnow, h.timerGate.trans hnow, h.dispGate.trans hnow⟩

/-- The instruction gate may fire at any time up to the latest sample (R221). -/
theorem State.Inv.setLfInsn (h : s.Inv) (hnow : now ≤ s.io.now) : (s.setLfInsn now).Inv :=
  ⟨h.config, h.memory, hnow, h.timerGate, h.dispGate⟩

/-- The timer gate likewise. -/
theorem State.Inv.setLfTimer (h : s.Inv) (hnow : now ≤ s.io.now) : (s.setLfTimer now).Inv :=
  ⟨h.config, h.memory, h.insnGate, hnow, h.dispGate⟩

/-- The display gate likewise. -/
theorem State.Inv.setLfDisp (h : s.Inv) (hnow : now ≤ s.io.now) : (s.setLfDisp now).Inv :=
  ⟨h.config, h.memory, h.insnGate, h.timerGate, hnow⟩

theorem State.Inv.setTurns (h : s.Inv) (turns : List Turn) : (s.setTurns turns).Inv := h.congr rfl rfl rfl rfl

theorem State.Inv.tick (h : s.Inv) : (tick s).Inv := h.congr rfl rfl rfl rfl

theorem State.Inv.present (h : s.Inv) : (present s).Inv := h.congr rfl rfl rfl rfl

theorem State.Inv.stopLoop (h : s.Inv) : (stopLoop s).Inv := h.congr rfl rfl rfl rfl

theorem State.Inv.refresh (h : s.Inv) : (refresh s).Inv := by
  unfold Machine.refresh
  split
  · exact h.present
  · exact h

theorem State.Inv.keyEvent (h : s.Inv) (e : KeyEvent) : (keyEvent e s).Inv := by
  rw [keyEvent_only]; exact h.congr rfl rfl rfl rfl

theorem State.Inv.drainEvents (h : s.Inv) (events : List KeyEvent) : (drainEvents events s).Inv := by
  rw [drainEvents_only]; exact h.congr rfl rfl rfl rfl

/-! ### The gates, tested at a time that is not ahead of the clock -/

theorem insnGate_now (h : insnGate now s = .next t) : t.io.now = s.io.now := by
  rcases insnGate_next.mp h with ⟨-, u, hu, rfl⟩ | ⟨-, rfl⟩
  · exact (execute_frame hu).now
  · rfl

theorem timerGate_now (now : Nat) (s : State) : (timerGate now s).io.now = s.io.now := by rw [timerGate_only]

theorem insnGate_keeps_inv (hs : s.Inv) (hnow : now ≤ s.io.now) (h : insnGate now s = .next t) : t.Inv := by
  rcases insnGate_next.mp h with ⟨-, u, hu, rfl⟩ | ⟨-, rfl⟩
  · have k := execute_frame hu
    exact (k.keeps_inv hs).setLfInsn (by rw [k.now]; exact hnow)
  · exact hs

theorem timerGate_keeps_inv (hs : s.Inv) (hnow : now ≤ s.io.now) : (timerGate now s).Inv := by
  unfold timerGate
  split
  · exact hs.tick.setLfTimer hnow
  · exact hs

theorem dispGate_keeps_inv (hs : s.Inv) (hnow : now ≤ s.io.now) : (dispGate now s).Inv := by
  unfold dispGate
  split
  · exact hs.present.setLfDisp hnow
  · exact hs

theorem poll_keeps_inv (hs : s.Inv) (hnow : now ≤ s.io.now) (h : poll now s = .next t) : t.Inv := by
  obtain ⟨u, hu, rfl⟩ := poll_next.mp h
  have hnowu : now ≤ u.io.now := by rw [insnGate_now hu]; exact hnow
  have hu : u.Inv := insnGate_keeps_inv hs hnow hu
  exact dispGate_keeps_inv (timerGate_keeps_inv hu hnowu) (by rw [timerGate_now]; exact hnowu)

/-! ### Turns and steps -/

/-- All that an iteration can lead to: a clock that did not run backwards, one poll, the test of `quit` (R227). -/
theorem iteration_next {events : List KeyEvent} {quit : Bool} :
    iteration events now quit s = .next t ↔
      s.io.now ≤ now ∧ ∃ u, poll now ((drainEvents events s).sampleNow now) = .next u ∧
        (if quit then stopLoop u else u) = t := by
  unfold iteration
  split
  · next hlt => simp [hlt]
  · next hlt => simp [Nat.le_of_not_lt hlt, andThen_next]

/-- The iteration samples the clock before it polls, so every gate is tested at the latest sample. -/
theorem iteration_keeps_inv {events : List KeyEvent} {quit : Bool} (hs : s.Inv)
    (h : iteration events now quit s = .next t) : t.Inv := by
  obtain ⟨hnow, u, hu, rfl⟩ := iteration_next.mp h
  have hsame : (drainEvents events s).io.now = s.io.now := by rw [drainEvents_only]
  have hsampled : ((drainEvents events s).sampleNow now).Inv := (hs.drainEvents events).sampleNow (hsame.le.trans hnow)
  have hu : u.Inv := poll_keeps_inv hsampled le_rfl hu
  cases quit
  · exact hu
  · exact hu.stopLoop

theorem perform_keeps_inv {a : Action} (hs : s.Inv) (h : perform a s = .next t) : t.Inv := by
  cases a with
  | execute => exact (execute_frame h).keeps_inv hs
  | key e => exact Host.Outcome.next.inj h ▸ hs.keyEvent e
  | tick => exact Host.Outcome.next.inj h ▸ hs.tick
  | refresh => exact Host.Outcome.next.inj h ▸ hs.refresh
  | stop => exact Host.Outcome.next.inj h ▸ hs.stopLoop

theorem takeTurn_keeps_inv {turn : Turn} (hs : s.Inv) (h : takeTurn turn s = .next t) : t.Inv := by
  cases turn with
  | iteration events now quit => exact iteration_keeps_inv hs h
  | act a => exact perform_keeps_inv hs h

/-- Settles O48: a step is nothing, an executor invocation or a host's turn, and each keeps the invariant. -/
theorem stepKeepsInvariant : Obligations.StepKeepsInvariant := by
  unfold Obligations.StepKeepsInvariant
  intro s t hs h
  rcases step_cases h with ⟨-, rfl⟩ | ⟨-, -, h⟩ | ⟨turn, rest, -, -, h⟩
  · exact hs
  · exact (execute_frame h).keeps_inv hs
  · exact takeTurn_keeps_inv (hs.setTurns rest) h

end Sys2Proof.Machine
end

section
/-! O51: the log of output events is append-only. An executor invocation extends it by its frame, a present event extends it,
and every other update leaves it as it was; an iteration composes these. -/

namespace Sys2Proof.Machine

variable {s t : State} {now : Nat}

theorem present_out_prefix (s : State) : s.io.out <+: (present s).io.out := List.prefix_append _ _

theorem refresh_out_prefix (s : State) : s.io.out <+: (refresh s).io.out := by
  unfold refresh
  split
  · exact present_out_prefix s
  · exact List.prefix_rfl

theorem drainEvents_out (events : List KeyEvent) (s : State) : (drainEvents events s).io.out = s.io.out := by
  rw [drainEvents_only]

theorem insnGate_out_prefix (h : insnGate now s = .next t) : s.io.out <+: t.io.out := by
  rcases insnGate_next.mp h with ⟨-, u, hu, rfl⟩ | ⟨-, rfl⟩
  · exact (execute_frame hu).out
  · exact List.prefix_rfl

theorem timerGate_out (now : Nat) (s : State) : (timerGate now s).io.out = s.io.out := by rw [timerGate_only]

theorem dispGate_out_prefix (now : Nat) (s : State) : s.io.out <+: (dispGate now s).io.out := by
  unfold dispGate
  split
  · exact present_out_prefix s
  · exact List.prefix_rfl

theorem poll_out_prefix (h : poll now s = .next t) : s.io.out <+: t.io.out := by
  obtain ⟨u, hu, rfl⟩ := poll_next.mp h
  have hgates : u.io.out <+: (dispGate now (timerGate now u)).io.out := by
    simpa only [timerGate_out] using dispGate_out_prefix now (timerGate now u)
  exact (insnGate_out_prefix hu).trans hgates

theorem iteration_out_prefix {events : List KeyEvent} {quit : Bool} (h : iteration events now quit s = .next t) :
    s.io.out <+: t.io.out := by
  obtain ⟨-, u, hu, rfl⟩ := iteration_next.mp h
  have hpoll : s.io.out <+: u.io.out := by
    simpa only [State.sampleNow_io, drainEvents_out] using poll_out_prefix hu
  cases quit
  · exact hpoll
  · exact hpoll

theorem perform_out_prefix {a : Action} (h : perform a s = .next t) : s.io.out <+: t.io.out := by
  cases a with
  | execute => exact (execute_frame h).out
  | key e => rw [← Host.Outcome.next.inj h, keyEvent_only]
  | tick => exact Host.Outcome.next.inj h ▸ List.prefix_rfl
  | refresh => exact Host.Outcome.next.inj h ▸ refresh_out_prefix s
  | stop => exact Host.Outcome.next.inj h ▸ List.prefix_rfl

theorem takeTurn_out_prefix {turn : Turn} (h : takeTurn turn s = .next t) : s.io.out <+: t.io.out := by
  cases turn with
  | iteration events now quit => exact iteration_out_prefix h
  | act a => exact perform_out_prefix h

/-- Settles O51: a step is nothing, an executor invocation or a host's turn, and each at most extends the log. -/
theorem stepOnlyAppendsOutput : Obligations.StepOnlyAppendsOutput := by
  unfold Obligations.StepOnlyAppendsOutput
  intro s t h
  rcases step_cases h with ⟨-, rfl⟩ | ⟨-, -, h⟩ | ⟨turn, rest, -, -, h⟩
  · exact List.prefix_rfl
  · exact (execute_frame h).out
  · exact takeTurn_out_prefix (s := s.setTurns rest) h

end Sys2Proof.Machine
end

section
/-! O12, O13, O17: 2NNN and 00EE on each depth of the call stack, and the sum of BNNN. -/

namespace Sys2Proof.Machine

variable {s : State}

theorem addrImm_toNat (nnn : Addr12) : (addrImm nnn).toNat = nnn.toNat :=
  BitVec.toNat_setWidth_of_le (by decide)

/-! ### The call stack -/

theorem push_of_lt (w : Word) (h : s.sp.val < 16) :
    push w s = some { s with stack := s.stack.set s.sp.val w h, sp := ⟨s.sp.val + 1, Nat.succ_lt_succ h⟩ } := dif_pos h

theorem pop_of_succ {k : Nat} (hk : k < 16) (h : s.sp.val = k + 1) :
    pop s = some (s.stack[k], { s with sp := ⟨k, Nat.lt_succ_of_lt hk⟩ }) := by
  simp [pop, h]

/-- 2NNN with room on the stack (R31, R102). -/
theorem exec_call_of_lt (nnn : Addr12) (h : s.sp.val < 16) :
    exec (.call nnn) s = .next
      { s with
        pc := addrImm nnn, stack := s.stack.set s.sp.val (s.pc + 2) h, sp := ⟨s.sp.val + 1, Nat.succ_lt_succ h⟩ } := by
  simp only [exec, execCall, push_of_lt (s := s.advance) _ h]
  rfl

/-- 2NNN on a full stack (R102, D10). -/
theorem exec_call_of_full (nnn : Addr12) (h : s.sp.val = 16) :
    exec (.call nnn) s = .next ((diagnose .stackOverflow (encode (.call nnn)) s.pc s.advance).setPc (addrImm nnn)) := by
  simp only [exec, execCall, push_none (s := s.advance).mpr h]

/-- 00EE on a stack that is not empty (R32, R100). -/
theorem exec_ret_of_succ {k : Nat} (hk : k < 16) (h : s.sp.val = k + 1) :
    exec .ret s = .next { s with pc := s.stack[k], sp := ⟨k, Nat.lt_succ_of_lt hk⟩ } := by
  simp only [exec, execRet, pop_of_succ (s := s.advance) hk h]
  rfl

/-- 00EE on an empty stack (R100, D10). -/
theorem exec_ret_of_empty (h : s.sp.val = 0) :
    exec .ret s = .next ((diagnose .stackUnderflow (encode .ret) s.pc s.advance).setPc 0) := by
  simp only [exec, execRet, pop_none (s := s.advance).mpr h]

/-- Settles O12, by whether the stack has room. -/
theorem callPushesAndJumps : Obligations.CallPushesAndJumps := by
  unfold Obligations.CallPushesAndJumps
  refine fun s nnn => ⟨fun hroom => ?_, fun hfull => ?_⟩
  · refine ⟨_, exec_call_of_lt nnn hroom, addrImm_toNat nnn, rfl, fun k hk => ?_, rfl, fun _ _ => rfl, fun _ => rfl⟩
    simp only [Vector.getElem_set, eq_comm]
  · exact ⟨_, exec_call_of_full nnn hfull, addrImm_toNat nnn, rfl, fun _ => rfl⟩

/-- Settles O13, by whether the stack is empty. -/
theorem returnPopsIntoPc : Obligations.ReturnPopsIntoPc := by
  unfold Obligations.ReturnPopsIntoPc
  refine fun s => ⟨fun k hk hdepth => ?_, fun hempty => ?_⟩
  · exact ⟨_, exec_ret_of_succ hk hdepth, rfl, rfl, rfl, rfl, fun _ _ => rfl, fun _ => rfl⟩
  · exact ⟨_, exec_ret_of_empty hempty, rfl, rfl, fun _ => rfl⟩

/-! ### BNNN -/

theorem jumpOffset_of_legacy (x : Nibble) (h : s.cfg.jumpWithOffsetMode = .legacy) : s.jumpOffset x = s.reg 0 := by
  simp only [State.jumpOffset, h]

theorem jumpOffset_of_indexed (x : Nibble) (h : s.cfg.jumpWithOffsetMode = .indexed) : s.jumpOffset x = s.reg x := by
  simp only [State.jumpOffset, h]

/-- Twelve bits plus eight never reach 65536, so BNNN's target is the sum itself (R107). -/
theorem offsetTarget_toNat (nnn : Addr12) (b : Byte) :
    (BitVec.ofNat 16 (nnn.toNat + b.toNat)).toNat = nnn.toNat + b.toNat := by
  have := nnn.isLt
  have := b.isLt
  rw [BitVec.toNat_ofNat, Nat.mod_eq_of_lt (by omega)]

theorem wf_jpOffset {nnn : Addr12} {x : Nibble} : (Instr.jpOffset nnn x).wf = true ↔ x = topDigit nnn := beq_iff_eq

/-- Settles O17: the target is NNN plus the register that the mode selects, and the sum does not overflow. -/
theorem offsetJumpAddsSelectedRegister : Obligations.OffsetJumpAddsSelectedRegister := by
  unfold Obligations.OffsetJumpAddsSelectedRegister
  intro s nnn x hwf
  obtain rfl := wf_jpOffset.mp hwf
  refine ⟨_, rfl, ⟨rfl, fun _ => rfl⟩, fun hmode => ?_, fun hmode => ?_⟩
  · exact (offsetTarget_toNat nnn _).trans (by rw [jumpOffset_of_legacy _ hmode])
  · exact (offsetTarget_toNat nnn _).trans (by rw [jumpOffset_of_indexed _ hmode])

end Sys2Proof.Machine
end

section
/-! O56, O57: which instructions write the timers, the call stack, `aks` and `I`. One inversion lemma over all instructions names
the writers; one lemma per piece of state reads it off. -/

namespace Sys2Proof.Machine

variable {i : Instr} {s t : State}

/-- What each instruction can write: the named writers of R23, R26, R27, R30 and R34, each with all it can change, and all other
instructions, which change at most `pc`, registers, memory and the host's ports. -/
inductive ExecWrites (s : State) : Instr → State → Prop
  | other {i pc v mem io} : ExecWrites s i { s with pc := pc, v := v, mem := mem, io := io }
  | ldToDt {x pc dt} : ExecWrites s (.ldToDt x) { s with pc := pc, dt := dt }
  | ldToSt {x pc st} : ExecWrites s (.ldToSt x) { s with pc := pc, st := st }
  | call {a pc stack sp} : ExecWrites s (.call a) { s with pc := pc, stack := stack, sp := sp }
  | ret {pc sp} : ExecWrites s .ret { s with pc := pc, sp := sp }
  | ldKey {x pc v aks} : ExecWrites s (.ldKey x) { s with pc := pc, v := v, aks := aks }
  | ldI {a pc index} : ExecWrites s (.ldI a) { s with pc := pc, i := index }
  | addI {x pc v index} : ExecWrites s (.addI x) { s with pc := pc, v := v, i := index }
  | ldGlyph {x pc index} : ExecWrites s (.ldGlyph x) { s with pc := pc, i := index }
  | storeRegs {x pc mem index} (quirk : s.cfg.loadStoreAdvancesIndex = true) :
      ExecWrites s (.storeRegs x) { s with pc := pc, mem := mem, i := index }
  | loadRegs {x pc v index} (quirk : s.cfg.loadStoreAdvancesIndex = true) :
      ExecWrites s (.loadRegs x) { s with pc := pc, v := v, i := index }

theorem advanceIndex_of_no_quirk (x : Nibble) (h : s.cfg.loadStoreAdvancesIndex = false) : s.advanceIndex x = s := by
  simp [State.advanceIndex, h]

/-- Every instruction writes no more than that. -/
theorem exec_writes (h : exec i s = .next t) : ExecWrites s i t := by
  cases i
  case cls =>
    obtain ⟨u, hu, rfl⟩ := finish_next.mp h
    rw [presentUnlessDecoupled_only, (forUp_store_frame (addr := fun a => a) (val := fun _ _ => 0) hu).1]
    exact .other
  case drw x y n =>
    obtain ⟨u, hu, rfl⟩ := finish_next.mp h
    rw [presentUnlessDecoupled_only, (drawRows_frame hu).only]
    exact .other
  case ldDigits x =>
    obtain ⟨u, hu, rfl⟩ := finish_next.mp h
    rw [(forUp_store_frame hu).1]
    exact .other
  case storeRegs x =>
    obtain ⟨u, hu, rfl⟩ := finish_next.mp h
    rw [(forUp_store_frame hu).1]
    cases quirk : s.cfg.loadStoreAdvancesIndex
    · rw [advanceIndex_of_no_quirk x]
      · exact .other
      · exact quirk
    · rw [advanceIndex_only]; exact .storeRegs quirk
  case loadRegs x =>
    obtain ⟨u, hu, rfl⟩ := finish_next.mp h
    rw [forUp_load_frame hu]
    cases quirk : s.cfg.loadStoreAdvancesIndex
    · rw [advanceIndex_of_no_quirk x]
      · exact .other
      · exact quirk
    · rw [advanceIndex_only]; exact .loadRegs quirk
  case ret =>
    cases hsp : s.sp.val with
    | zero => exact Host.Outcome.next.inj ((exec_ret_of_empty hsp).symm.trans h) ▸ .other
    | succ k =>
      have hk : k < 16 := by omega
      exact Host.Outcome.next.inj ((exec_ret_of_succ hk hsp).symm.trans h) ▸ .ret
  case call a =>
    rcases Nat.lt_or_eq_of_le (Nat.le_of_lt_succ s.sp.isLt) with hsp | hsp
    · exact Host.Outcome.next.inj ((exec_call_of_lt a hsp).symm.trans h) ▸ .call
    · exact Host.Outcome.next.inj ((exec_call_of_full a hsp).symm.trans h) ▸ .other
  case skp x =>
    simp only [exec, execSkp] at h
    split at h
    · rw [← Host.Outcome.next.inj h, skipIf_only]; exact .other
    · exact Host.Outcome.next.inj h ▸ .other
  case sknp x =>
    simp only [exec, execSknp] at h
    split at h
    · rw [← Host.Outcome.next.inj h, skipIf_only]; exact .other
    · exact Host.Outcome.next.inj h ▸ .other
  case ldKey x =>
    simp only [exec, execLdKey] at h
    split at h <;> exact Host.Outcome.next.inj h ▸ .ldKey
  case addI x => rw [← Host.Outcome.next.inj h, rangeFlag_only]; exact .addI
  case ldI a => exact Host.Outcome.next.inj h ▸ .ldI
  case ldGlyph x => exact Host.Outcome.next.inj h ▸ .ldGlyph
  case ldToDt x => exact Host.Outcome.next.inj h ▸ .ldToDt
  case ldToSt x => exact Host.Outcome.next.inj h ▸ .ldToSt
  case seImm x nn => rw [← Host.Outcome.next.inj h, skipIf_only]; exact .other
  case sneImm x nn => rw [← Host.Outcome.next.inj h, skipIf_only]; exact .other
  case seReg x y => rw [← Host.Outcome.next.inj h, skipIf_only]; exact .other
  case sneReg x y => rw [← Host.Outcome.next.inj h, skipIf_only]; exact .other
  all_goals exact Host.Outcome.next.inj h ▸ .other

/-! ### Each piece of state has no writer but the named ones -/

theorem exec_dt (h : exec i s = .next t) (hi : ∀ x, i ≠ .ldToDt x) : t.dt = s.dt := by
  cases exec_writes h with
  | ldToDt => exact absurd rfl (hi _)
  | _ => rfl

theorem exec_st (h : exec i s = .next t) (hi : ∀ x, i ≠ .ldToSt x) : t.st = s.st := by
  cases exec_writes h with
  | ldToSt => exact absurd rfl (hi _)
  | _ => rfl

theorem exec_stack (h : exec i s = .next t) (hret : i ≠ .ret) (hcall : ∀ a, i ≠ .call a) :
    t.sp = s.sp ∧ t.stack = s.stack := by
  cases exec_writes h with
  | ret => exact absurd rfl hret
  | call => exact absurd rfl (hcall _)
  | _ => exact ⟨rfl, rfl⟩

theorem exec_aks (h : exec i s = .next t) (hi : ∀ x, i ≠ .ldKey x) : t.aks = s.aks := by
  cases exec_writes h with
  | ldKey => exact absurd rfl (hi _)
  | _ => rfl

/-- Settles O56: the timers, the stack and `aks` by their named writers, `keys` and the gates by the frame of every
instruction. -/
theorem writersOfTimersStackAndKeypad : Obligations.WritersOfTimersStackAndKeypad := by
  unfold Obligations.WritersOfTimersStackAndKeypad
  intro i s t h
  have hframe := exec_frame h
  exact ⟨exec_dt h, exec_st h, exec_stack h, exec_aks h, hframe.keys, hframe.gates⟩

/-- Settles O57: the named writers of `I` are the excluded ones, and all others leave it. -/
theorem writersOfIndex : Obligations.WritersOfIndex := by
  unfold Obligations.WritersOfIndex
  intro i s t h hldI haddI hglyph hquirk
  cases exec_writes h with
  | ldI => exact absurd rfl (hldI _)
  | addI => exact absurd rfl (haddI _)
  | ldGlyph => exact absurd rfl (hglyph _)
  | storeRegs quirk => exact absurd rfl ((hquirk quirk).1 _)
  | loadRegs quirk => exact absurd rfl ((hquirk quirk).2 _)
  | _ => rfl

end Sys2Proof.Machine
end

section
/-! O8, O9: one access of memory, and the fetch, which is two of them. -/

namespace Sys2Proof.Machine

variable {s : State}

/-- Settles O8: the write is `Memory.set`, which a read sees at that address alone and which keeps the canonical form. -/
theorem readGivesLatestWrite : Obligations.ReadGivesLatestWrite := by
  unfold Obligations.ReadGivesLatestWrite
  intro s a b hwf ha
  refine ⟨_, memWrite_ok ha, ?_, fun c hc => ?_, Memory.wf_set hwf ha⟩
  · simp only [memRead, byteAt_set hwf, if_pos ha, ↓reduceIte]
  · simp only [memRead, byteAt_set hwf, if_neg hc]

/-! ### The fetch -/

/-- Both bytes inside memory (R57, R71). -/
theorem fetch_ok (h : s.pc.toNat + 1 < s.cfg.memSize) :
    fetch s = .ok (bigEndian (s.byteAt s.pc.toNat) (s.byteAt (s.pc.toNat + 1))) := by
  simp only [fetch, memRead_ok h, memRead_ok (Nat.lt_of_succ_lt h)]

/-- The first byte beyond memory (R54, R207). -/
theorem fetch_fault_first (h : s.cfg.memSize ≤ s.pc.toNat) : fetch s = .error (.addrOutOfRange s.pc.toNat) := by
  simp only [fetch, memRead_fault h]

/-- The second byte alone beyond memory (R54, R207). -/
theorem fetch_fault_second (h : s.pc.toNat + 1 = s.cfg.memSize) :
    fetch s = .error (.addrOutOfRange (s.pc.toNat + 1)) := by
  simp only [fetch, memRead_ok (Nat.lt_of_succ_le h.le), memRead_fault h.ge]

/-- A fault of the fetch is the whole invocation (R207). -/
theorem execute_of_fetch_fault {f : Fault} (h : fetch s = .error f) : execute s = .fault f := by
  simp only [execute, h]

/-- Settles O9: each access by whether its address is below MEM_SIZE, the fetch by which of its two bytes is. -/
theorem accessFaultsExactlyBeyondMemory : Obligations.AccessFaultsExactlyBeyondMemory := by
  unfold Obligations.AccessFaultsExactlyBeyondMemory
  intro s a b
  exact ⟨fun h => ⟨memRead_ok h, _, memWrite_ok h⟩, fun h => ⟨memRead_fault h, memWrite_fault h⟩,
    fun h => execute_of_fetch_fault (fetch_fault_first h), fun h => execute_of_fetch_fault (fetch_fault_second h), fetch_ok⟩

end Sys2Proof.Machine
end

section
/-! O55: the instructions that write memory. -/

namespace Sys2Proof.Machine

variable {i : Instr} {s t : State}

/-- No instruction but 00E0, DXYN, FX33 and FX55 writes memory (R56, R62). -/
theorem exec_mem (h : exec i s = .next t) (hcls : i ≠ .cls) (hdrw : ∀ x y n, i ≠ .drw x y n)
    (hdigits : ∀ x, i ≠ .ldDigits x) (hstore : ∀ x, i ≠ .storeRegs x) : t.mem = s.mem := by
  cases i
  case cls => exact absurd rfl hcls
  case drw x y n => exact absurd rfl (hdrw x y n)
  case ldDigits x => exact absurd rfl (hdigits x)
  case storeRegs x => exact absurd rfl (hstore x)
  case loadRegs x =>
    obtain ⟨u, hu, rfl⟩ := finish_next.mp h
    rw [advanceIndex_only, forUp_load_frame hu]; rfl
  case ret =>
    cases hsp : s.sp.val with
    | zero => exact Host.Outcome.next.inj ((exec_ret_of_empty hsp).symm.trans h) ▸ rfl
    | succ k =>
      have hk : k < 16 := by omega
      exact Host.Outcome.next.inj ((exec_ret_of_succ hk hsp).symm.trans h) ▸ rfl
  case call a =>
    rcases Nat.lt_or_eq_of_le (Nat.le_of_lt_succ s.sp.isLt) with hsp | hsp
    · exact Host.Outcome.next.inj ((exec_call_of_lt a hsp).symm.trans h) ▸ rfl
    · exact Host.Outcome.next.inj ((exec_call_of_full a hsp).symm.trans h) ▸ rfl
  case skp x | sknp x =>
    simp only [exec, execSkp, execSknp] at h
    split at h
    · rw [← Host.Outcome.next.inj h, skipIf_only]; rfl
    · exact Host.Outcome.next.inj h ▸ rfl
  case ldKey x =>
    simp only [exec, execLdKey] at h
    split at h <;> exact Host.Outcome.next.inj h ▸ rfl
  case addI x => rw [← Host.Outcome.next.inj h, rangeFlag_only]; rfl
  case seImm x nn | sneImm x nn | seReg x y | sneReg x y => rw [← Host.Outcome.next.inj h, skipIf_only]; rfl
  all_goals exact Host.Outcome.next.inj h ▸ rfl

/-- Settles O55, by the case split over the instructions in `exec_mem`. -/
theorem onlyFourInstructionsWriteMemory : Obligations.OnlyFourInstructionsWriteMemory := by
  unfold Obligations.OnlyFourInstructionsWriteMemory
  exact fun _ _ _ h => exec_mem h

end Sys2Proof.Machine
end

section
/-! O10: the whole effect of each of the four instructions that store, where every byte they use lies inside memory, and the
fetch that follows it. -/

namespace Sys2Proof.Machine

variable {s t : State}

/-! ### What ends the four leaves memory and `pc` alone -/

@[simp] theorem State.advanceIndex_cfg (s : State) (x : Nibble) : (s.advanceIndex x).cfg = s.cfg := by
  rw [advanceIndex_only]
@[simp] theorem State.advanceIndex_pc (s : State) (x : Nibble) : (s.advanceIndex x).pc = s.pc := by
  rw [advanceIndex_only]
@[simp] theorem State.advanceIndex_byteAt (s : State) (x : Nibble) (a : Nat) :
    (s.advanceIndex x).byteAt a = s.byteAt a := by
  rw [advanceIndex_only]; rfl
@[simp] theorem presentUnlessDecoupled_cfg (s : State) : (presentUnlessDecoupled s).cfg = s.cfg := by
  rw [presentUnlessDecoupled_only]
@[simp] theorem presentUnlessDecoupled_pc (s : State) : (presentUnlessDecoupled s).pc = s.pc := by
  rw [presentUnlessDecoupled_only]
@[simp] theorem presentUnlessDecoupled_byteAt (s : State) (a : Nat) : (presentUnlessDecoupled s).byteAt a = s.byteAt a := by
  rw [presentUnlessDecoupled_only]; rfl

/-! ### The four effects -/

/-- A storing loop that begins at turn 0: what it stored, and what it did not reach. -/
theorem forUp_store_zero {base n : Nat} {val : Nat → State → Byte} (hval : ∀ j m, val j { s with mem := m } = val j s)
    (hwf : Memory.wf s.cfg s.mem = true) (hin : base + n ≤ s.cfg.memSize) :
    ∃ m, forUp n 0 (fun j u => memWrite (base + j) (val j u) u) s = .ok { s with mem := m } ∧
      (∀ j, j < n → Memory.get s.cfg m (base + j) = val j s) ∧
      ∀ a, ¬ (base ≤ a ∧ a < base + n) → Memory.get s.cfg m a = s.byteAt a := by
  obtain ⟨m, hm, -, hget⟩ := forUp_store (base := base) (n := n) (k := 0) hval hwf (by rwa [Nat.zero_add])
  simp only [Nat.zero_add, Nat.add_zero] at hget
  refine ⟨m, hm, fun j hj => ?_, fun a ha => (hget a).trans (if_neg ha)⟩
  rw [hget, if_pos (by omega), Nat.add_sub_cancel_left]

theorem regIndex_toNat (k : Nibble) : regIndex k.toNat = k := (BitVec.ofNat_toNat 4 k).trans (BitVec.setWidth_eq k)

/-- FX55 inside memory (R144). -/
theorem exec_storeRegs_ok (x : Nibble) (hwf : Memory.wf s.cfg s.mem = true) (hin : s.i.toNat + x.toNat < s.cfg.memSize) :
    ∃ m, exec (.storeRegs x) s = .next (State.advanceIndex { s.advance with mem := m } x) ∧
      (∀ k : Nibble, k.toNat ≤ x.toNat → Memory.get s.cfg m (s.indexed k.toNat) = s.reg k) ∧
      ∀ a, ¬ (s.indexed 0 ≤ a ∧ a < s.indexed (x.toNat + 1)) → Memory.get s.cfg m a = s.byteAt a := by
  obtain ⟨m, hm, hstored, hrest⟩ := forUp_store_zero (s := s.advance) (base := s.i.toNat) (n := x.toNat + 1)
    (val := fun j u => u.reg (regIndex j)) (fun _ _ => rfl) hwf hin
  exact ⟨m, finish_next.mpr ⟨_, hm, rfl⟩,
    fun k hk => (hstored k.toNat (Nat.lt_succ_of_le hk)).trans (congrArg s.reg (regIndex_toNat k)), hrest⟩

/-- FX33 inside memory (R143). -/
theorem exec_ldDigits_ok (x : Nibble) (hwf : Memory.wf s.cfg s.mem = true) (hin : s.i.toNat + 2 < s.cfg.memSize) :
    ∃ m, exec (.ldDigits x) s = .next { s.advance with mem := m } ∧
      (∀ k, k < 3 → Memory.get s.cfg m (s.indexed k) = digitAt (s.reg x) k) ∧
      ∀ a, ¬ (s.indexed 0 ≤ a ∧ a < s.indexed 3) → Memory.get s.cfg m a = s.byteAt a := by
  obtain ⟨m, hm, hstored, hrest⟩ := forUp_store_zero (s := s.advance) (base := s.i.toNat) (n := 3)
    (val := fun j _ => digitAt (s.reg x) j) (fun _ _ => rfl) hwf hin
  exact ⟨m, finish_next.mpr ⟨_, hm, rfl⟩, hstored, hrest⟩

theorem digitAt_zero_toNat (b : Byte) : (digitAt b 0).toNat = b.toNat / 100 := by
  rw [digitAt, if_pos rfl, hundreds, BitVec.toNat_ofNat]; omega

theorem digitAt_one_toNat (b : Byte) : (digitAt b 1).toNat = b.toNat / 10 % 10 := by
  rw [digitAt, if_neg (by decide), if_pos rfl, tens, BitVec.toNat_ofNat]; omega

theorem digitAt_two_toNat (b : Byte) : (digitAt b 2).toNat = b.toNat % 10 := by
  rw [digitAt, if_neg (by decide), if_neg (by decide), ones, BitVec.toNat_ofNat]; omega

/-- 00E0 under an admitted configuration (R160). -/
theorem exec_cls_ok (hcfg : s.cfg.wf = true) (hwf : Memory.wf s.cfg s.mem = true) :
    ∃ m, exec .cls s = .next (presentUnlessDecoupled { s.advance with mem := m }) ∧
      (∀ a, inDisplay s.cfg a → Memory.get s.cfg m a = 0) ∧
      ∀ a, ¬ inDisplay s.cfg a → Memory.get s.cfg m a = s.byteAt a := by
  obtain ⟨m, hm, -, hget⟩ := forUp_store (s := s.advance) (base := 0) (n := fbBytes) (k := s.cfg.displayBase)
    (val := fun _ _ => 0) (fun _ _ => rfl) hwf (by rw [Nat.zero_add]; exact (Config.bounds hcfg).display)
  simp only [Nat.zero_add] at hm hget
  exact ⟨m, finish_next.mpr ⟨_, hm, rfl⟩, fun a ha => (hget a).trans (if_pos ha), fun a ha => (hget a).trans (if_neg ha)⟩

/-- The lit pixels of a sprite, by row and bit as DXYN's loops take them (R161). -/
theorem spriteLights_iff {x y n : Nibble} {col row : Nat} :
    s.spriteLights x y n col row ↔ ∃ r, r < n.toNat ∧ ∃ c, c < 8 ∧
      bitLights (s.originColumn x) (s.originRow y) r (s.byteAt (s.indexed 0 + r)) c ∧
      col = s.originColumn x + c ∧ row = s.originRow y + r := by
  constructor
  · rintro ⟨c, r, hc, hr, rfl, rfl, hcol, hrow, hlit⟩
    exact ⟨r, hr, c, hc, ⟨hlit, hcol, hrow⟩, rfl, rfl⟩
  · rintro ⟨r, hr, c, hc, ⟨hlit, hcol, hrow⟩, rfl, rfl⟩
    exact ⟨c, r, hc, hr, rfl, rfl, hcol, hrow, hlit⟩

/-- DXYN under an admitted configuration, its sprite inside memory (R161 to R163). -/
theorem exec_drw_ok (x y n : Nibble) (hcfg : s.cfg.wf = true) (hin : n = 0 ∨ s.i.toNat + n.toNat ≤ s.cfg.memSize) :
    ∃ u, exec (.drw x y n) s = .next (presentUnlessDecoupled u) ∧ DrawFrame (s.advance.setFlag false) u ∧
      (Memory.wf s.cfg s.mem = true → s.SpriteOutsideDisplay n.toNat → ∀ col row, col < 64 →
        (u.pixel col row = true ↔ ¬ (s.pixel col row = true ↔ s.spriteLights x y n col row))) := by
  obtain ⟨u, hu, hframe, -, hdraw⟩ := drawRows_complete (s := s.advance.setFlag false) (base := s.indexed 0)
    (ox := s.originColumn x) (oy := s.originRow y) (n := n.toNat) hcfg (hin.imp_left (by rintro rfl; rfl))
  refine ⟨u, finish_next.mpr ⟨_, hu, rfl⟩, hframe, fun hwf hout col row hcol => ?_⟩
  rw [spriteLights_iff]
  exact (hdraw hwf hout).1 col row hcol

/-! ### The fetch that follows -/

/-- The fetch at the next instruction reads two adjacent bytes of memory as it then is. -/
theorem fetch_next_word {p : Nat} {b : Nat → Byte} (hcfg : t.cfg = s.cfg) (hpc : t.pc = s.pc + 2)
    (hbyte : ∀ a, t.byteAt a = b a) (hp : p = s.pc.toNat + 2) (hword : p + 1 < 65536) (hin : p + 1 < s.cfg.memSize) :
    fetch t = .ok (bigEndian (b p) (b (p + 1))) := by
  have hpt : t.pc.toNat = p := by
    rw [hpc, BitVec.toNat_add, hp]
    exact Nat.mod_eq_of_lt (show s.pc.toNat + 2 < 2 ^ 16 by omega)
  rw [fetch_ok (by rwa [hpt, hcfg]), hpt, hbyte, hbyte]

/-- Settles O10: after each of the four, by its effect on memory. -/
theorem storeIsSeenByNextFetch : Obligations.StoreIsSeenByNextFetch := by
  unfold Obligations.StoreIsSeenByNextFetch
  refine fun s p hwf hp hword hmem => ⟨fun x hin => ?_, fun x hin => ?_, fun hcfg => ?_, fun x y n hcfg hin hout => ?_⟩
  · obtain ⟨m, hexec, hstored, hrest⟩ := exec_storeRegs_ok x hwf hin
    refine ⟨_, Memory.get s.cfg m, hexec, ?_, hstored, fun a ha => hrest a (by simp only [State.indexed]; omega)⟩
    exact fetch_next_word (by simp) (by simp) (State.advanceIndex_byteAt _ x) hp hword hmem
  · obtain ⟨m, hexec, hstored, hrest⟩ := exec_ldDigits_ok x hwf hin
    have hdigit := fun k hk => congrArg BitVec.toNat (hstored k hk)
    exact ⟨_, Memory.get s.cfg m, hexec, fetch_next_word (s := s) rfl rfl (fun _ => rfl) hp hword hmem,
      (hdigit 0 (by decide)).trans (digitAt_zero_toNat _), (hdigit 1 (by decide)).trans (digitAt_one_toNat _),
      (hdigit 2 (by decide)).trans (digitAt_two_toNat _), fun a ha => hrest a (by simp only [State.indexed]; omega)⟩
  · obtain ⟨m, hexec, hzero, hrest⟩ := exec_cls_ok hcfg hwf
    refine ⟨_, Memory.get s.cfg m, hexec, ?_, hzero, hrest⟩
    exact fetch_next_word (by simp) (by simp) (presentUnlessDecoupled_byteAt _) hp hword hmem
  · obtain ⟨u, hexec, hframe, hpix⟩ := exec_drw_ok x y n hcfg hin
    refine ⟨_, u.byteAt, hexec, ?_, fun col row hcol _ => ?_, hframe.bytes⟩
    · exact fetch_next_word (by simp [hframe.cfg]) (by rw [presentUnlessDecoupled_pc, hframe.only]; rfl)
        (presentUnlessDecoupled_byteAt u) hp hword hmem
    · have h := hpix hwf hout col row hcol
      rwa [State.pixel, hframe.cfg] at h

end Sys2Proof.Machine
end

section
/-! O1 to O5: the decoder, the encoder and the opcode table agree. A word is its fields in any format (`formatA_fields` and its
like), so what decoding reads, encoding writes back; a row of the table asks for OP and for what OP's family compares of the rest. -/

namespace Sys2Proof

variable {w v : Word} {i : Instr}

/-! ### The decoder reads back what the encoder writes -/

/-- What decoding two bytes and more says about their word (R70). -/
theorem decode_ok_iff {b0 b1 : Byte} {rest tail : List Byte} :
    decode (b0 :: b1 :: rest) = .ok (i, tail) ↔ decodeWord (bigEndian b0 b1) = .ok i ∧ tail = rest := by
  simp only [decode]
  split
  · next j hj => simp [hj, eq_comm]
  · next e he => simp [he]

/-- Each instruction is found in the family of its OP, by its own sub-opcode (R74, R75). -/
theorem decodeWord_encode (h : i.wf = true) : decodeWord (encode i) = .ok i := by
  cases i with
  | cls | ret => rfl
  | jpOffset nnn x =>
    rw [Machine.wf_jpOffset] at h
    simp [encode, decodeWord, h]
  | jp | call | seImm | sneImm | ldImm | addImm | ldI | rnd | drw => simp [encode, decodeWord]
  | seReg => simp [encode, decodeWord, decodeFamily5]
  | ldReg | orReg | andReg | xorReg | addReg | subReg | shr | subn | shl => simp [encode, decodeWord, decodeFamily8]
  | sneReg => simp [encode, decodeWord, decodeFamily9]
  | skp | sknp => simp [encode, decodeWord, decodeFamilyE]
  | ldFromDt | ldKey | ldToDt | ldToSt | addI | ldGlyph | ldDigits | storeRegs | loadRegs =>
    simp [encode, decodeWord, decodeFamilyF]

/-- Settles O1: the two bytes are the word of the instruction, which decodes to it. -/
theorem decodeOfEncode : Obligations.DecodeOfEncode := by
  unfold Obligations.DecodeOfEncode
  intro i rest h
  exact decode_ok_iff.mpr ⟨by rw [bigEndian_bytes, decodeWord_encode h], rfl⟩

/-! ### The encoder writes back what the decoder reads -/

/-! For each family with a sub-opcode: what it decodes from a word of its OP is the word's encoding. -/

theorem encode_of_decodeFamily0 (h : decodeFamily0 w = .ok i) : encode i = w ∧ i.wf = true := by
  unfold decodeFamily0 at h
  split_ifs at h with h0 h1 <;> cases h
  · exact ⟨h0.symm, rfl⟩
  · exact ⟨h1.symm, rfl⟩

theorem encode_of_decodeFamily5 (hop : opField w = 0x5) (h : decodeFamily5 w = .ok i) : encode i = w ∧ i.wf = true := by
  have hw := formatR_fields w
  unfold decodeFamily5 at h
  split_ifs at h with hn
  cases h
  rw [hop, hn] at hw
  exact ⟨hw, rfl⟩

theorem encode_of_decodeFamily8 (hop : opField w = 0x8) (h : decodeFamily8 w = .ok i) : encode i = w ∧ i.wf = true := by
  have hw := formatR_fields w
  unfold decodeFamily8 at h
  split_ifs at h with hn hn hn hn hn hn hn hn hn <;> cases h <;> rw [hop, hn] at hw <;> exact ⟨hw, rfl⟩

theorem encode_of_decodeFamily9 (hop : opField w = 0x9) (h : decodeFamily9 w = .ok i) : encode i = w ∧ i.wf = true := by
  have hw := formatR_fields w
  unfold decodeFamily9 at h
  split_ifs at h with hn
  cases h
  rw [hop, hn] at hw
  exact ⟨hw, rfl⟩

theorem encode_of_decodeFamilyE (hop : opField w = 0xE) (h : decodeFamilyE w = .ok i) : encode i = w ∧ i.wf = true := by
  have hw := formatI_fields w
  unfold decodeFamilyE at h
  split_ifs at h with hnn hnn <;> cases h <;> rw [hop, hnn] at hw <;> exact ⟨hw, rfl⟩

theorem encode_of_decodeFamilyF (hop : opField w = 0xF) (h : decodeFamilyF w = .ok i) : encode i = w ∧ i.wf = true := by
  have hw := formatI_fields w
  unfold decodeFamilyF at h
  split_ifs at h with hnn hnn hnn hnn hnn hnn hnn hnn hnn <;> cases h <;> rw [hop, hnn] at hw <;> exact ⟨hw, rfl⟩

/-- BNNN reads bits 11:8 twice, so its two fields agree (R73). -/
theorem topDigit_nnnField (w : Word) : topDigit (nnnField w) = xField w := by
  rw [← xField_formatA (opField w), formatA_fields]

/-- By the family of the word: the arms without a sub-opcode by format (R72), the others by their family's lemma. -/
theorem encode_of_decodeWord (h : decodeWord w = .ok i) : encode i = w ∧ i.wf = true := by
  have hA := formatA_fields w
  have hI := formatI_fields w
  have hR := formatR_fields w
  unfold decodeWord at h
  split at h
  case h_1 => exact encode_of_decodeFamily0 h
  -- 1NNN, 2NNN, ANNN
  case h_2 hop | h_3 hop | h_11 hop => cases h; rw [hop] at hA; exact ⟨hA, rfl⟩
  -- 3XNN, 4XNN, 6XNN, 7XNN, CXNN
  case h_4 hop | h_5 hop | h_7 hop | h_8 hop | h_13 hop => cases h; rw [hop] at hI; exact ⟨hI, rfl⟩
  case h_6 hop => exact encode_of_decodeFamily5 hop h
  case h_9 hop => exact encode_of_decodeFamily8 hop h
  case h_10 hop => exact encode_of_decodeFamily9 hop h
  -- BNNN
  case h_12 hop => cases h; rw [hop] at hA; exact ⟨hA, Machine.wf_jpOffset.mpr (topDigit_nnnField w).symm⟩
  -- DXYN
  case h_14 hop => cases h; rw [hop] at hR; exact ⟨hR, rfl⟩
  case h_15 hop => exact encode_of_decodeFamilyE hop h
  case h_16 hop => exact encode_of_decodeFamilyF hop h
  -- no OP is left (R79)
  case h_17 => cases h

/-- Settles O2, by the family of the word and its sub-opcode. -/
theorem encodeOfDecode : Obligations.EncodeOfDecode := by
  unfold Obligations.EncodeOfDecode
  exact fun _ _ => encode_of_decodeWord

/-! ### The table -/

open Laws.OwnRow in
/-- Each instruction's word selects its own row. -/
theorem encode_selects_own_row : ∀ i, Statement i
  | .cls => cls | .ret => ret | .jp nnn => jp nnn | .call nnn => call nnn | .seImm x nn => seImm x nn
  | .sneImm x nn => sneImm x nn | .seReg x y => seReg x y | .ldImm x nn => ldImm x nn | .addImm x nn => addImm x nn
  | .ldReg x y => ldReg x y | .orReg x y => orReg x y | .andReg x y => andReg x y | .xorReg x y => xorReg x y
  | .addReg x y => addReg x y | .subReg x y => subReg x y | .shr x y => shr x y | .subn x y => subn x y | .shl x y => shl x y
  | .sneReg x y => sneReg x y | .ldI nnn => ldI nnn | .jpOffset nnn x => jpOffset nnn x | .rnd x nn => rnd x nn
  | .drw x y n => drw x y n | .skp x => skp x | .sknp x => sknp x | .ldFromDt x => ldFromDt x | .ldKey x => ldKey x
  | .ldToDt x => ldToDt x | .ldToSt x => ldToSt x | .addI x => addI x | .ldGlyph x => ldGlyph x | .ldDigits x => ldDigits x
  | .storeRegs x => storeRegs x | .loadRegs x => loadRegs x

theorem encode_selects_some_row (i : Instr) : ∃ r ∈ opcodeTable, r.selects (encode i) = true := by
  obtain ⟨r, hr, hsel⟩ := Option.map_eq_some_iff.mp (encode_selects_own_row i)
  exact ⟨r, List.mem_of_getElem? hr, hsel⟩

/-- Two words agree in OP and in what OP's family compares of the rest (R74): the whole word in family 0, N in 5, 8 and 9, NN in
E and F, nothing in the others. -/
structure SameOpcode (w v : Word) : Prop where
  op : opField w = opField v
  whole : opField v = 0x0 → w = v
  n : opField v = 0x5 ∨ opField v = 0x8 ∨ opField v = 0x9 → nField w = nField v
  nn : opField v = 0xE ∨ opField v = 0xF → nnField w = nnField v

/-- Whether a word decodes hangs on nothing else. -/
theorem SameOpcode.isOk_eq (h : SameOpcode w v) : (decodeWord w).isOk = (decodeWord v).isOk := by
  simp only [decodeWord, h.op]
  split
  case h_1 hop => rw [h.whole hop]
  case h_6 hop => simp only [decodeFamily5, apply_ite Except.isOk, h.n (.inl hop)]; rfl
  case h_9 hop => simp only [decodeFamily8, apply_ite Except.isOk, h.n (.inr (.inl hop))]; rfl
  case h_10 hop => simp only [decodeFamily9, apply_ite Except.isOk, h.n (.inr (.inr hop))]; rfl
  case h_15 hop => simp only [decodeFamilyE, apply_ite Except.isOk, h.nn (.inl hop)]; rfl
  case h_16 hop => simp only [decodeFamilyF, apply_ite Except.isOk, h.nn (.inr hop)]; rfl
  all_goals rfl

/-- A mask keeps every field that it covers. -/
theorem field_and_mask {start len : Nat} {mask : Word} (h : mask.extractLsb' start len = BitVec.allOnes len) :
    (w &&& mask).extractLsb' start len = w.extractLsb' start len := by
  rw [BitVec.extractLsb'_and, h, BitVec.and_allOnes]

/-- Each row's mask covers OP and what OP's family compares (R76). -/
theorem mask_covers_opcode : ∀ r ∈ opcodeTable, opField r.mask = 0xF ∧ (opField r.value = 0x0 → r.mask = 0xFFFF) ∧
    (opField r.value = 0x5 ∨ opField r.value = 0x8 ∨ opField r.value = 0x9 → nField r.mask = 0xF) ∧
    (opField r.value = 0xE ∨ opField r.value = 0xF → nnField r.mask = 0xFF) := by decide

theorem sameOpcode_of_selects {r : OpcodeRow} (hr : r ∈ opcodeTable) (h : r.selects w = true) : SameOpcode w r.value := by
  obtain ⟨hop, hwhole, hn, hnn⟩ := mask_covers_opcode r hr
  have hv : w &&& r.mask = r.value := beq_iff_eq.mp h
  refine ⟨?_, fun hf => ?_, fun hf => ?_, fun hf => ?_⟩
  · rw [← hv]; exact (field_and_mask hop).symm
  · rw [← hv, hwhole hf]; exact BitVec.and_allOnes.symm
  · rw [← hv]; exact (field_and_mask (hn hf)).symm
  · rw [← hv]; exact (field_and_mask (hnn hf)).symm

theorem value_decodes : ∀ r ∈ opcodeTable, (decodeWord r.value).isOk = true := by decide

theorem decodes_of_selects {r : OpcodeRow} (hr : r ∈ opcodeTable) (h : r.selects w = true) : ∃ i, decodeWord w = .ok i := by
  have hok := (sameOpcode_of_selects hr h).isOk_eq.trans (value_decodes r hr)
  cases hd : decodeWord w with
  | ok i => exact ⟨i, rfl⟩
  | error e => rw [hd] at hok; cases hok

/-- Settles O3: an instruction's word selects its row; a word that selects a row decodes as the row's own
value does. -/
theorem decodesIffRowSelects : Obligations.DecodesIffRowSelects := by
  unfold Obligations.DecodesIffRowSelects
  refine fun w => ⟨fun ⟨i, hi⟩ => ?_, fun ⟨r, hr, h⟩ => decodes_of_selects hr h⟩
  rw [← (encode_of_decodeWord hi).1]
  exact encode_selects_some_row i

/-- What two rows ask of one word agrees on the bits that both compare. -/
theorem OpcodeRow.values_agree {r q : OpcodeRow} (hr : r.selects w = true) (hq : q.selects w = true) :
    r.value &&& q.mask = q.value &&& r.mask := by
  rw [OpcodeRow.selects, beq_iff_eq] at hr hq
  rw [← hr, ← hq, BitVec.and_assoc, BitVec.and_assoc, BitVec.and_comm r.mask]

/-- Settles O4: any two rows differ in a bit that both compare. -/
theorem noWordSelectsTwoRows : Obligations.NoWordSelectsTwoRows := by
  unfold Obligations.NoWordSelectsTwoRows
  have hdiffer : opcodeTable.Pairwise (fun r q => r.value &&& q.mask ≠ q.value &&& r.mask) := by decide
  exact hdiffer.imp fun hne w ⟨hr, hq⟩ => hne (OpcodeRow.values_agree hr hq)

/-- Settles O5, word by word. -/
theorem wordsOfTheSpecDecode : Obligations.WordsOfTheSpecDecode := by
  unfold Obligations.WordsOfTheSpecDecode
  exact ⟨rfl, rfl, rfl, rfl, rfl, rfl, rfl, rfl⟩

end Sys2Proof
end

section
/-! O6, O7: what an executor invocation makes of the fetched word, and what a step makes of the host's queue. -/

namespace Sys2Proof.Machine

variable {s : State} {w : Word} {i : Instr}

/-! ### One executor invocation -/

theorem execute_of_decodes (hf : fetch s = .ok w) (hd : decodeWord w = .ok i) : execute s = exec i s := by
  simp only [execute, hf, hd]

theorem execute_of_unknown {e : DecodeError} (hf : fetch s = .ok w) (hd : decodeWord w = .error e) :
    execute s = .next (unknownOpcode w s) := by
  simp only [execute, hf, hd]

/-- A word without a row does not decode. -/
theorem decodeWord_of_no_row (h : ∀ r ∈ opcodeTable, r.selects w = false) : ∃ e, decodeWord w = .error e := by
  cases hd : decodeWord w with
  | error e => exact ⟨e, rfl⟩
  | ok i =>
    obtain ⟨r, hr, hsel⟩ := (decodesIffRowSelects w).mp ⟨i, hd⟩
    exact absurd hsel (by rw [h r hr]; decide)

/-- Settles O6: the word does not decode, and then the invocation is `unknownOpcode`. -/
theorem unknownWordOnlyAdvancesAndLogs : Obligations.UnknownWordOnlyAdvancesAndLogs := by
  unfold Obligations.UnknownWordOnlyAdvancesAndLogs
  intro s w hf hrows
  obtain ⟨e, he⟩ := decodeWord_of_no_row hrows
  exact ⟨_, execute_of_unknown hf he, rfl, rfl, fun _ => rfl⟩

/-- The bytes at `pc` decode, so the invocation is their instruction's meaning (R71). -/
theorem execute_of_bytes_decode (hpc : s.pc.toNat + 1 < s.cfg.memSize)
    (hd : decode [s.byteAt s.pc.toNat, s.byteAt (s.pc.toNat + 1)] = .ok (i, [])) : execute s = exec i s :=
  execute_of_decodes (fetch_ok hpc) (decode_ok_iff.mp hd).1

/-! ### One step of a running machine -/

theorem step_of_no_turn (hs : s.io.stopped = false) (ht : s.io.turns = []) : step s = execute s := by
  simp [step, nextTurn, hs, ht]

theorem step_of_turn {turn : Turn} {rest : List Turn} (hs : s.io.stopped = false) (ht : s.io.turns = turn :: rest) :
    step s = takeTurn turn (s.setTurns rest) := by
  simp [step, nextTurn, hs, ht]

/-- Settles O7: the invocation by what the bytes at `pc` decode to, every other turn by the action it is. -/
theorem stepRunsTheDecodedInstruction : Obligations.StepRunsTheDecodedInstruction := by
  unfold Obligations.StepRunsTheDecodedInstruction
  intro s hs
  refine ⟨fun i hpc hd => ⟨fun ht => ?_, fun rest ht => ?_⟩, fun rest k ht => step_of_turn hs ht,
    fun rest k ht => step_of_turn hs ht, fun rest ht => step_of_turn hs ht, fun rest ht => ?_,
    fun rest ht => step_of_turn hs ht, fun rest events now quit ht => step_of_turn hs ht⟩
  · rw [step_of_no_turn hs ht, execute_of_bytes_decode hpc hd]
  · rw [step_of_turn hs ht]
    exact execute_of_bytes_decode hpc hd
  · rw [step_of_turn hs ht]
    by_cases hdec : s.cfg.decoupleDisplay = true
    · rw [if_pos hdec]
      exact congrArg Host.Outcome.next (if_pos hdec)
    · rw [if_neg hdec]
      exact congrArg Host.Outcome.next (if_neg hdec)

end Sys2Proof.Machine
end

section
/-! O11, O14, O15, O16, O60: the jump, a call with its return, the four skips, and a parked program. -/

namespace Sys2Proof.Machine

variable {s : State}

/-! ### The jump and the call -/

/-- Settles O11: the target is the zero-extended NNN. -/
theorem jumpSetsPcToTarget : Obligations.JumpSetsPcToTarget := by
  unfold Obligations.JumpSetsPcToTarget
  exact fun s nnn => ⟨_, rfl, addrImm_toNat nnn, rfl, fun _ => rfl⟩

/-- Settles O14: the return pops the entry that the call pushed at the old depth, and the valid entries lie below it. -/
theorem callThenReturnComesBack : Obligations.CallThenReturnComesBack := by
  unfold Obligations.CallThenReturnComesBack
  intro s nnn hroom
  refine ⟨_, _, exec_call_of_lt nnn hroom, exec_ret_of_succ hroom rfl, ?_, rfl, fun k hk hvalid => ?_, rfl, fun _ _ => rfl,
    fun _ => rfl⟩
  · exact Vector.getElem_set_self hroom
  · exact Vector.getElem_set_ne hroom hk hvalid.ne'

/-! ### The skips -/

/-- Where a skip lands: past the next instruction when its condition holds, else at it (R108). -/
theorem advance_skipIf_pc (s : State) (b : Bool) : (s.advance.skipIf b).pc = if b then s.pc + 4 else s.pc + 2 := by
  cases b with
  | false => rfl
  | true => exact BitVec.add_assoc s.pc 2 2

theorem onlyPc_advance_skipIf (s : State) (b : Bool) : OnlyPc s (s.advance.skipIf b) := by
  rw [skipIf_only]
  exact ⟨rfl, fun _ => rfl⟩

/-- A skip when two bytes agree (R103, R105). -/
theorem skipIf_eq_spec (s : State) (a b : Byte) :
    (s.advance.skipIf (a == b)).pc = (if a = b then s.pc + 4 else s.pc + 2) ∧ OnlyPc s (s.advance.skipIf (a == b)) :=
  ⟨by simp only [advance_skipIf_pc, beq_iff_eq], onlyPc_advance_skipIf s _⟩

/-- A skip when two bytes differ (R104, R106). -/
theorem skipIf_ne_spec (s : State) (a b : Byte) :
    (s.advance.skipIf (a != b)).pc = (if a = b then s.pc + 2 else s.pc + 4) ∧ OnlyPc s (s.advance.skipIf (a != b)) :=
  ⟨by simp only [advance_skipIf_pc, bne_iff_ne, ite_not], onlyPc_advance_skipIf s _⟩

/-- Settles O15: both are a skip on comparing V[X] with NN. -/
theorem immediateSkips : Obligations.ImmediateSkips := by
  unfold Obligations.ImmediateSkips
  exact fun s x nn => ⟨⟨_, rfl, skipIf_eq_spec s _ nn⟩, ⟨_, rfl, skipIf_ne_spec s _ nn⟩⟩

/-- Settles O16: both are a skip on comparing V[X] with V[Y]. -/
theorem registerSkips : Obligations.RegisterSkips := by
  unfold Obligations.RegisterSkips
  exact fun s x y => ⟨⟨_, rfl, skipIf_eq_spec s _ _⟩, ⟨_, rfl, skipIf_ne_spec s _ _⟩⟩

/-! ### A parked program -/

/-- The two bytes R268 asks for at `a` are the word of the jump to `a` (R73, R101). -/
theorem bigEndian_parked {a : Nat} (ha : a < 4096) :
    bigEndian (BitVec.ofNat 8 (0x10 + a / 256)) (BitVec.ofNat 8 (a % 256)) = encode (.jp (BitVec.ofNat 12 a)) := by
  apply BitVec.eq_of_toNat_eq
  simp only [bigEndian, encode, formatA, BitVec.toNat_append, BitVec.toNat_ofNat]
  rw [← Nat.shiftLeft_add_eq_or_of_lt (by omega), ← Nat.shiftLeft_add_eq_or_of_lt (by omega)]
  have hop : (1 : Nibble).toNat = 1 := rfl
  simp only [Nat.shiftLeft_eq, hop]
  omega

/-- A target below 4096 is not cut by NNN's twelve bits. -/
theorem addrImm_ofNat {a : Nat} (ha : a < 4096) : addrImm (BitVec.ofNat 12 a) = BitVec.ofNat 16 a :=
  BitVec.setWidth_ofNat_of_le_of_lt (by decide) ha

/-- A jump to its own address is a fixed point (R101). -/
theorem exec_jp_self {nnn : Addr12} (h : addrImm nnn = s.pc) : exec (.jp nnn) s = .next s :=
  congrArg (fun w => Host.Outcome.next (s.setPc w)) h

/-- Settles O60: the fetched word is the jump to `pc`. -/
theorem parkedStaysParked : Obligations.ParkedStaysParked := by
  unfold Obligations.ParkedStaysParked
  rintro s ⟨a, ha, hin, hpc, hb0, hb1⟩
  have hpcNat : s.pc.toNat = a := by rw [hpc, BitVec.toNat_ofNat, Nat.mod_eq_of_lt (by omega)]
  have hfetch : fetch s = .ok (encode (.jp (BitVec.ofNat 12 a))) := by
    rw [fetch_ok (by rwa [hpcNat]), hpcNat, hb0, hb1, bigEndian_parked ha]
  rw [execute_of_decodes hfetch (decodeWord_encode rfl)]
  exact exec_jp_self ((addrImm_ofNat ha).trans hpc.symm)

end Sys2Proof.Machine
end

section
/-! O18 to O24: the loads, the arithmetic, the logic, the shifts and the random byte (41_alu.md). Each ends in one of two writes,
`setReg` or `flagThenResult` on the advanced state, so its effect and its frame are stated once for each of the two. -/

namespace Sys2Proof.Machine

variable {s : State} {x : Nibble} {b r : Byte} {f : Bool} {i : Instr} {m n : Nat}

/-! ### Instructions that write V[X] alone -/

theorem State.reg_setReg_self (s : State) (x : Nibble) (b : Byte) : (s.setReg x b).reg x = b := by
  rw [State.reg_setReg, if_pos rfl]

theorem sameRegsOutside_setReg (s : State) (x : Nibble) (b : Byte) : SameRegsOutside [x] s (s.setReg x b) := fun z hz => by
  rw [State.reg_setReg, if_neg (List.ne_of_not_mem_cons hz)]

theorem onlyRegs_advance_setReg (s : State) (x : Nibble) (b : Byte) : OnlyRegs [x] s (s.advance.setReg x b) :=
  ⟨rfl, sameRegsOutside_setReg s.advance x b, fun _ => rfl⟩

/-- Settles O18: both write V[X] alone. -/
theorem loadsSetTheDestination : Obligations.LoadsSetTheDestination := by
  unfold Obligations.LoadsSetTheDestination
  exact fun s x y nn => ⟨⟨_, rfl, State.reg_setReg_self _ x nn, rfl, onlyRegs_advance_setReg s x nn⟩,
    ⟨_, rfl, State.reg_setReg_self _ x _, rfl, onlyRegs_advance_setReg s x _⟩⟩

/-- Settles O19: the sum of two bytes is reduced modulo 256. -/
theorem addImmediateWraps : Obligations.AddImmediateWraps := by
  unfold Obligations.AddImmediateWraps
  intro s x nn
  refine ⟨_, rfl, ?_, rfl, onlyRegs_advance_setReg s x _⟩
  rw [State.reg_setReg_self, BitVec.toNat_add]

/-- An instruction whose meaning is to write V[X] leaves there what was written, bit by bit. -/
theorem exec_setReg_bits {bit : Nat → Bool} (h : exec i s = .next (s.advance.setReg x r)) (hbit : ∀ k, r.getLsbD k = bit k) :
    ∃ t, exec i s = .next t ∧ t.pc = s.pc + 2 ∧ OnlyRegs [x] s t ∧ ∀ k, k < 8 → (t.reg x).getLsbD k = bit k :=
  ⟨_, h, rfl, onlyRegs_advance_setReg s x r, fun k _ => by rw [State.reg_setReg_self, hbit]⟩

/-- Settles O20, by the bits of the three operations. -/
theorem logicIsBitwise : Obligations.LogicIsBitwise := by
  unfold Obligations.LogicIsBitwise
  exact fun s x y => ⟨exec_setReg_bits rfl fun _ => BitVec.getLsbD_or, exec_setReg_bits rfl fun _ => BitVec.getLsbD_and,
    exec_setReg_bits rfl fun _ => BitVec.getLsbD_xor⟩

/-! ### Instructions that write the flag, then V[X] -/

theorem flagByte_toNat (f : Bool) : (flagByte f).toNat = f.toNat := by
  cases f with
  | false => rfl
  | true => rfl

theorem flagByte_decide_toNat (p : Prop) [Decidable p] : (flagByte (decide p)).toNat = if p then 1 else 0 := by
  rw [flagByte_toNat, Bool.toNat, Bool.cond_decide]

theorem onlyRegs_advance_flagThenResult (s : State) (x : Nibble) (f : Bool) (r : Byte) :
    OnlyRegs [x, vf] s (s.advance.flagThenResult x f r) := by
  refine ⟨rfl, fun z hz => ?_, fun _ => rfl⟩
  obtain ⟨hx, hvf⟩ : z ≠ x ∧ z ≠ vf := by simpa using hz
  rw [State.reg_flagThenResult, if_neg hx, if_neg hvf, State.advance_reg]

/-- The one form of the five flag-writing instructions (R120): the result remains in V[X] at X = 0xF too, the flag elsewhere. -/
theorem exec_flagThenResult (h : exec i s = .next (s.advance.flagThenResult x f r)) (hr : r.toNat = n)
    (hf : (flagByte f).toNat = m) :
    ∃ t, exec i s = .next t ∧ (t.reg x).toNat = n ∧ (x ≠ vf → (t.reg vf).toNat = m) ∧ t.pc = s.pc + 2 ∧
      OnlyRegs [x, vf] s t := by
  refine ⟨_, h, ?_, fun hx => ?_, rfl, onlyRegs_advance_flagThenResult s x f r⟩
  · rw [State.reg_flagThenResult, if_pos rfl, hr]
  · rw [State.reg_flagThenResult, if_neg hx.symm, if_pos rfl, hf]

/-- Settles O21: the flag is `carryOut`. -/
theorem addSetsCarry : Obligations.AddSetsCarry := by
  unfold Obligations.AddSetsCarry
  exact fun s x y => exec_flagThenResult rfl (BitVec.toNat_add _ _) (flagByte_decide_toNat _)

/-- The difference of two bytes modulo 256, with no truncated subtraction. -/
theorem byte_sub_toNat (a b : Byte) : (a - b).toNat = (a.toNat + 256 - b.toNat) % 256 := by
  rw [BitVec.toNat_sub]
  have hb : b.toNat < 256 := b.isLt
  omega

/-- Settles O22: the flag is `noBorrow` of the operands in the order of the subtraction. -/
theorem subtractsSetNoBorrow : Obligations.SubtractsSetNoBorrow := by
  unfold Obligations.SubtractsSetNoBorrow
  exact fun s x y => ⟨exec_flagThenResult rfl (byte_sub_toNat _ _) (flagByte_decide_toNat _),
    exec_flagThenResult rfl (byte_sub_toNat _ _) (flagByte_decide_toNat _)⟩

theorem shiftOperand_toNat (s : State) (x y : Nibble) :
    (s.shiftOperand x y).toNat = if s.cfg.shiftCopiesSourceRegister = true then (s.reg y).toNat else (s.reg x).toNat :=
  apply_ite BitVec.toNat _ _ _

theorem byte_shr_one_toNat (b : Byte) : (b >>> 1).toNat = b.toNat / 2 := by
  rw [BitVec.toNat_ushiftRight, Nat.shiftRight_eq_div_pow]

theorem byte_shl_one_toNat (b : Byte) : (b <<< 1).toNat = b.toNat * 2 % 256 := by
  rw [BitVec.toNat_shiftLeft, Nat.shiftLeft_eq]

theorem flagByte_lowBit_toNat (b : Byte) : (flagByte (lowBit b)).toNat = b.toNat % 2 := by
  rw [flagByte_toNat, lowBit, BitVec.getLsbD, Nat.toNat_testBit, Nat.pow_zero, Nat.div_one]

theorem flagByte_highBit_toNat (b : Byte) : (flagByte (highBit b)).toNat = b.toNat / 128 := by
  rw [flagByte_toNat, highBit, BitVec.getLsbD, Nat.toNat_testBit]
  have hb : b.toNat < 256 := b.isLt
  omega

/-- Settles O23: both shift the operand that the quirk selects, and the flag is the bit of it that falls out. -/
theorem shiftsByOne : Obligations.ShiftsByOne := by
  unfold Obligations.ShiftsByOne
  intro s x y v hv
  obtain rfl : (s.shiftOperand x y).toNat = v := (shiftOperand_toNat s x y).trans hv.symm
  exact ⟨exec_flagThenResult rfl (byte_shr_one_toNat _) (flagByte_lowBit_toNat _),
    exec_flagThenResult rfl (byte_shl_one_toNat _) (flagByte_highBit_toNat _)⟩

/-! ### The random byte -/

theorem rndByte_of_cons {rest : List Byte} (h : s.io.rndIn = b :: rest) : s.rndByte = b := by
  simp only [State.rndByte, h]

theorem rndByte_of_nil (h : s.io.rndIn = []) : s.rndByte = Config.freeRnd s.io.draws := by
  simp only [State.rndByte, h]

/-- Settles O24: the drawn byte is the head of the port, or the free value where the port is empty. -/
theorem randomIsMaskedDraw : Obligations.RandomIsMaskedDraw := by
  unfold Obligations.RandomIsMaskedDraw
  intro s x nn
  have hreg : (s.advance.rndTaken.setReg x (s.rndByte &&& nn)).reg x = s.rndByte &&& nn := State.reg_setReg_self _ x _
  refine ⟨_, rfl, hreg, ?_, rfl, fun b rest hin => ⟨?_, ?_⟩, fun hin => ⟨?_, ?_⟩, rfl,
    sameRegsOutside_setReg s.advance.rndTaken x _, fun _ => rfl⟩
  · rw [hreg, BitVec.and_assoc, BitVec.and_not_self]
    exact BitVec.and_zero
  · rw [hreg, rndByte_of_cons hin]
  · exact congrArg List.tail hin
  · rw [hreg, rndByte_of_nil hin]
  · exact congrArg List.tail hin

end Sys2Proof.Machine
end

section
/-! O25, O27, O28, O29: the index loads, and FX33, FX55 and FX65 where every byte they use lies inside memory
(42_index_memory.md). The two storing loops are those of O10; FX65's loop is put in the same form here. -/

namespace Sys2Proof.Machine

variable {s : State} {m : Memory}

/-! ### The index register -/

/-- A write of `I` on the advanced state is within the frame, with no register written. -/
theorem onlyIndexAndRegs_advance_setIndex (s : State) (w : Word) : OnlyIndexAndRegs [] s (s.advance.setIndex w) :=
  ⟨rfl, fun _ _ => rfl, fun _ => rfl⟩

/-- Settles O25: both write `I` alone; the glyph's address is reduced modulo 65536 by the width of `I`. -/
theorem indexLoads : Obligations.IndexLoads := by
  unfold Obligations.IndexLoads
  exact fun s nnn x => ⟨⟨_, rfl, addrImm_toNat nnn, rfl, onlyIndexAndRegs_advance_setIndex s _⟩,
    ⟨_, rfl, BitVec.toNat_ofNat _ 16, rfl, onlyIndexAndRegs_advance_setIndex s _⟩⟩

/-- The index quirk in numbers (R144, R145, D18). -/
theorem advanceIndex_i_toNat (s : State) (x : Nibble) :
    (s.advanceIndex x).i.toNat =
      if s.cfg.loadStoreAdvancesIndex = true then (s.i.toNat + x.toNat + 1) % 65536 else s.i.toNat := by
  unfold State.advanceIndex
  split
  · exact BitVec.toNat_ofNat _ 16
  · rfl

@[simp] theorem State.advanceIndex_reg (s : State) (x z : Nibble) : (s.advanceIndex x).reg z = s.reg z := by
  rw [advanceIndex_only]; rfl

/-! ### The stores -/

/-- Settles O27: the three digits are those that the loop of O10 stored, and it reached no other byte. -/
theorem digitsAreStored : Obligations.DigitsAreStored := by
  unfold Obligations.DigitsAreStored
  intro s x hwf hin
  obtain ⟨m, hexec, hstored, hrest⟩ := exec_ldDigits_ok x hwf hin
  have hdigit := fun k hk => congrArg BitVec.toNat (hstored k hk)
  exact ⟨_, hexec, rfl, rfl, (hdigit 0 (by decide)).trans (digitAt_zero_toNat _),
    (hdigit 1 (by decide)).trans (digitAt_one_toNat _), (hdigit 2 (by decide)).trans (digitAt_two_toNat _),
    rfl, fun _ _ => rfl, hrest⟩

/-- Memory written by a loop on the advanced state, then the index quirk: FX55's frame. -/
theorem onlyIndexAndBytes_advanceIndex {stored : Nat → Prop} (x : Nibble)
    (hrest : ∀ a, ¬ stored a → Memory.get s.cfg m a = s.byteAt a) :
    OnlyIndexAndBytes stored s (State.advanceIndex { s.advance with mem := m } x) := by
  rw [advanceIndex_only]
  exact ⟨rfl, fun _ _ => rfl, hrest⟩

/-- Settles O28: the loop of O10 stored the registers, and the index quirk that ends it leaves memory alone. -/
theorem registersAreStored : Obligations.RegistersAreStored := by
  unfold Obligations.RegistersAreStored
  intro s x hwf hin
  obtain ⟨m, hexec, hstored, hrest⟩ := exec_storeRegs_ok x hwf hin
  refine ⟨_, hexec, State.advanceIndex_pc _ x, fun k hk => ?_, advanceIndex_i_toNat _ x,
    onlyIndexAndBytes_advanceIndex x hrest⟩
  rw [State.advanceIndex_byteAt]
  exact hstored k hk

/-! ### The load -/

/-- FX65 inside memory (R145). -/
theorem exec_loadRegs_ok (x : Nibble) (hin : s.i.toNat + x.toNat < s.cfg.memSize) :
    ∃ v, exec (.loadRegs x) s = .next (State.advanceIndex { s.advance with v := v } x) ∧
      ∀ k : Nibble, State.reg { s with v := v } k =
        if k.toNat ≤ x.toNat then s.byteAt (s.indexed k.toNat) else s.reg k := by
  obtain ⟨u, hu, honly, hreg⟩ := forUp_load (s := s.advance) (base := s.i.toNat) (n := x.toNat + 1) x.isLt hin
  rw [honly] at hu
  exact ⟨u.v, finish_next.mpr ⟨_, hu, rfl⟩, fun k => (hreg k).trans (if_congr Nat.lt_succ_iff rfl rfl)⟩

/-- Settles O29: the loop loaded the registers, and the index quirk that ends it leaves them alone. -/
theorem registersAreLoaded : Obligations.RegistersAreLoaded := by
  unfold Obligations.RegistersAreLoaded
  intro s x hin
  obtain ⟨v, hexec, hreg⟩ := exec_loadRegs_ok x hin
  refine ⟨_, hexec, State.advanceIndex_pc _ x, fun k => ?_, advanceIndex_i_toNat _ x, ?_, State.advanceIndex_byteAt _ x⟩
  · rw [State.advanceIndex_reg]
    exact hreg k
  · rw [advanceIndex_only]
    rfl

end Sys2Proof.Machine
end

section
/-! O31 to O35: the display instructions (43_display.md). 00E0 and DXYN are put in the frame of R166 by one lemma; DXYN's flag is
described beside the pixels of O10; and one row of a sprite is compared, bit by bit, with the two masked bytes of R167. -/

namespace Sys2Proof.Machine

variable {s t u : State}

/-! ### The frame of 00E0 and DXYN -/

/-- The present event that ends an instruction closes the frame of R166: its snapshot is of the state as it stands. -/
theorem onlyDisplay_presentUnlessDecoupled {ws : List Nibble} (honly : u = { s with pc := u.pc, v := u.v, mem := u.mem })
    (hregs : SameRegsOutside ws s u) (hbytes : SameBytesOutside (inDisplay s.cfg) s u) :
    OnlyDisplay ws s (presentUnlessDecoupled u) := by
  rw [presentUnlessDecoupled_only]
  exact ⟨by rw [honly]; rfl, hregs, hbytes⟩

@[simp] theorem presentUnlessDecoupled_reg (s : State) (z : Nibble) : (presentUnlessDecoupled s).reg z = s.reg z := by
  rw [presentUnlessDecoupled_only]; rfl
@[simp] theorem presentUnlessDecoupled_pixel (s : State) (col row : Nat) :
    (presentUnlessDecoupled s).pixel col row = s.pixel col row := by
  rw [presentUnlessDecoupled_only]; rfl

/-- Settles O31: every display byte was stored as 0, and a pixel is a bit of one of them. -/
theorem clearZeroesTheFramebuffer : Obligations.ClearZeroesTheFramebuffer := by
  unfold Obligations.ClearZeroesTheFramebuffer
  intro s hcfg hwf
  obtain ⟨m, hexec, hzero, hrest⟩ := exec_cls_ok hcfg hwf
  refine ⟨_, hexec, presentUnlessDecoupled_pc _, fun a ha => ?_, fun col row hcol hrow => ?_,
    onlyDisplay_presentUnlessDecoupled rfl (fun _ _ => rfl) hrest⟩
  · rw [presentUnlessDecoupled_byteAt]
    exact hzero a ha
  · have hbyte : State.byteAt { s.advance with mem := m } (pixelAddr s.cfg col row) = 0 :=
      hzero _ (pixelAddr_inDisplay hcol hrow)
    rw [presentUnlessDecoupled_pixel]
    exact (congrArg (fun b : Byte => b.getLsbD (7 - col % 8)) hbyte).trans BitVec.getLsbD_zero

/-! ### DXYN -/

/-- VF after a DXYN whose sprite lies inside memory: a flag, and for a sprite outside the display region 1 exactly if a pixel it
lights was on (R161, R162). -/
theorem exec_drw_flag {x y n : Nibble} (hcfg : s.cfg.wf = true) (hin : n = 0 ∨ s.i.toNat + n.toNat ≤ s.cfg.memSize)
    (h : exec (.drw x y n) s = .next t) :
    (t.reg vf = 0 ∨ t.reg vf = 1) ∧ (Memory.wf s.cfg s.mem = true → s.SpriteOutsideDisplay n.toNat →
      (t.reg vf = 1 ↔ ∃ col row, s.spriteLights x y n col row ∧ s.pixel col row = true)) := by
  obtain ⟨u, hu, -, hflag, hdraw⟩ := drawRows_complete (s := s.advance.setFlag false) (base := s.indexed 0)
    (ox := s.originColumn x) (oy := s.originRow y) (n := n.toNat) hcfg (hin.imp_left (by rintro rfl; rfl))
  obtain ⟨u', hu', rfl⟩ := finish_next.mp h
  obtain rfl : u = u' := Except.ok.inj (hu.symm.trans hu')
  have hreset : (s.advance.setFlag false).reg vf = 0 := (State.reg_setFlag _ false vf).trans (if_pos rfl)
  rw [hreset] at hflag hdraw
  rw [presentUnlessDecoupled_reg]
  refine ⟨hflag.symm, fun hwf hout => ?_⟩
  obtain ⟨-, hon, hoff⟩ := hdraw hwf hout
  constructor
  · intro hone
    by_contra hnone
    have hzero := hoff fun ⟨r, hr, c, hc, hlit, hpix⟩ =>
      hnone ⟨_, _, spriteLights_iff.mpr ⟨r, hr, c, hc, hlit, rfl, rfl⟩, hpix⟩
    exact absurd (hone.symm.trans hzero) (by decide)
  · rintro ⟨col, row, hlit, hpix⟩
    obtain ⟨r, hr, c, hc, hbit, rfl, rfl⟩ := spriteLights_iff.mp hlit
    exact hon ⟨r, hr, c, hc, hbit, hpix⟩

/-- Settles O32: the rows complete within `DrawFrame`, and the present event follows. -/
theorem drawCompletesAndChangesOnlyTheDisplay : Obligations.DrawCompletesAndChangesOnlyTheDisplay := by
  unfold Obligations.DrawCompletesAndChangesOnlyTheDisplay
  intro s x y n hcfg hin
  obtain ⟨u, hexec, hframe, -⟩ := exec_drw_ok x y n hcfg hin
  have hregs : SameRegsOutside [vf] s u := fun z hz =>
    have hne : z ≠ vf := List.ne_of_not_mem_cons hz
    (hframe.regs z hne).trans ((State.reg_setFlag _ false z).trans (if_neg hne))
  refine ⟨_, hexec, ?_, (exec_drw_flag hcfg hin hexec).1, onlyDisplay_presentUnlessDecoupled ?_ hregs hframe.bytes⟩
  · rw [presentUnlessDecoupled_pc, hframe.only]; rfl
  · rw [hframe.only]; rfl

/-- Settles O33: the pixels are those of O10, the flag is `exec_drw_flag`. -/
theorem drawTogglesTheLitPixels : Obligations.DrawTogglesTheLitPixels := by
  unfold Obligations.DrawTogglesTheLitPixels
  intro s x y n hcfg hwf hin hout
  obtain ⟨u, hexec, -, hpix⟩ := exec_drw_ok x y n hcfg hin
  refine ⟨_, hexec, fun col row hcol _ => ?_, (exec_drw_flag hcfg hin hexec).2 hwf hout⟩
  rw [presentUnlessDecoupled_pixel]
  exact hpix hwf hout col row hcol

/-! ### The same sprite drawn again -/

/-- The frame of R166 leaves `I` as it was, and so every address of the sprite. -/
theorem indexed_of_onlyDisplay {ws : List Nibble} (hdisp : OnlyDisplay ws s t) (k : Nat) : t.indexed k = s.indexed k := by
  rw [hdisp.1]; rfl

/-- A draw keeps the sprite's bytes, where they lie outside the display region, and its place, where VF gives no coordinate: the
sprite lights the same pixels again. -/
theorem spriteLights_of_onlyDisplay {x y n : Nibble} (hdisp : OnlyDisplay [vf] s t) (hx : x ≠ vf) (hy : y ≠ vf)
    (hout : s.SpriteOutsideDisplay n.toNat) (col row : Nat) :
    t.spriteLights x y n col row ↔ s.spriteLights x y n col row := by
  obtain ⟨-, hregs, hbytes⟩ := id hdisp
  have hcol : t.originColumn x = s.originColumn x := congrArg (·.toNat % 64) (hregs x (by simpa using hx))
  have hrow : t.originRow y = s.originRow y := congrArg (·.toNat % 32) (hregs y (by simpa using hy))
  have hbyte : ∀ r, r < n.toNat → t.spriteByte r = s.spriteByte r := fun r hr => by
    rw [State.spriteByte, indexed_of_onlyDisplay hdisp]; exact hbytes _ (hout r hr)
  unfold State.spriteLights
  rw [hcol, hrow]
  refine exists_congr fun c => exists_congr fun r => and_congr_right fun _ => and_congr_right fun hr => ?_
  rw [hbyte r hr]

/-- Settles O34: the second draw lights the pixels of the first, so each is inverted twice or not at all. -/
theorem drawTwiceRestoresPixels : Obligations.DrawTwiceRestoresPixels := by
  unfold Obligations.DrawTwiceRestoresPixels
  intro s x y n hcfg hwf hx hy hin hout
  obtain ⟨t, hexec, hpix, -⟩ := drawTogglesTheLitPixels s x y n hcfg hwf hin hout
  obtain ⟨t', hexec', -, -, hdisp⟩ := drawCompletesAndChangesOnlyTheDisplay s x y n hcfg hin
  obtain rfl : t = t' := Host.Outcome.next.inj (hexec.symm.trans hexec')
  have hlights := spriteLights_of_onlyDisplay hdisp hx hy hout
  have hframe := exec_frame hexec
  have hin' : n = 0 ∨ t.i.toNat + n.toNat ≤ t.cfg.memSize := by rw [hdisp.1]; exact hin
  have hout' : t.SpriteOutsideDisplay n.toNat := fun r hr => by
    rw [hframe.cfg, indexed_of_onlyDisplay hdisp]; exact hout r hr
  obtain ⟨u, hexec2, hpix2, hflag2⟩ := drawTogglesTheLitPixels t x y n (by rwa [hframe.cfg])
    (by rw [hframe.cfg]; exact hframe.canonical hwf) hin' hout'
  refine ⟨t, u, hexec, hexec2, fun col row hcol hrow => ?_, hflag2.trans ?_⟩
  · rw [Bool.eq_iff_iff, hpix2 col row hcol hrow, hlights, hpix col row hcol hrow]
    by_cases hlit : s.spriteLights x y n col row <;> simp [hlit]
  · refine exists_congr fun col => exists_congr fun row => ?_
    rw [hlights]
    refine and_congr_right fun hlit => ?_
    obtain ⟨c, r, -, -, -, -, hcol, hrow, -⟩ := id hlit
    rw [hpix col row hcol hrow, iff_true_right hlit, Bool.not_eq_true]

/-! ### One row in closed form -/

/-- The masks of R167, by address: what a row of the sprite, its byte `b` and its first pixel at column `ox` of display row `row`,
lights in each byte. -/
def rowMask (cfg : Config) (ox row : Nat) (b : Byte) (a : Nat) : Byte :=
  if a = pixelAddr cfg ox row then b >>> (ox % 8)
  else if a = pixelAddr cfg ox row + 1 ∧ ox / 8 < 7 then b <<< (8 - ox % 8)
  else 0#8

/-- The bits of a row that light a given pixel: at most one, found by the distance from the origin column. -/
theorem exists_bitLights_iff {ox oy r col row : Nat} {b : Byte} (hcol : col < 64) (hrow : oy + r < 32) :
    (∃ c, c < 8 ∧ bitLights ox oy r b c ∧ col = ox + c ∧ row = oy + r) ↔
      row = oy + r ∧ ox ≤ col ∧ col < ox + 8 ∧ b.getLsbD (7 - (col - ox)) = true := by
  constructor
  · rintro ⟨c, hc, ⟨hbit, -, -⟩, rfl, hr⟩
    exact ⟨hr, by omega, by omega, by rwa [Nat.add_sub_cancel_left]⟩
  · rintro ⟨hr, hle, hlt, hbit⟩
    exact ⟨col - ox, by omega, ⟨hbit, by omega, hrow⟩, by omega, hr⟩

/-- A mask's bit is the sprite bit that lights its pixel (R161, R167). -/
theorem rowMask_bit {cfg : Config} {ox oy r col row : Nat} {b : Byte} (hox : ox < 64) (hcol : col < 64) (hrow : oy + r < 32) :
    (rowMask cfg ox (oy + r) b (pixelAddr cfg col row)).getLsbD (7 - col % 8) = true ↔
      ∃ c, c < 8 ∧ bitLights ox oy r b c ∧ col = ox + c ∧ row = oy + r := by
  rw [exists_bitLights_iff hcol hrow]
  unfold rowMask pixelAddr
  split
  next hfirst =>
    rw [BitVec.getLsbD_ushiftRight]
    have hplace : row = oy + r ∧ col < ox + 8 := by omega
    by_cases hle : ox ≤ col
    · have hbit : ox % 8 + (7 - col % 8) = 7 - (col - ox) := by omega
      simp [hplace, hle, hbit]
    · rw [BitVec.getLsbD_of_ge b _ (by omega)]
      simp [hle]
  next hnotFirst =>
    split
    next hsecond =>
      rw [BitVec.getLsbD_shiftLeft]
      have hplace : row = oy + r ∧ ox ≤ col := by omega
      by_cases hlt : col < ox + 8
      · have hbit : 7 - col % 8 - (8 - ox % 8) = 7 - (col - ox) := by omega
        have hreach : 7 - col % 8 < 8 ∧ ¬ 7 - col % 8 < 8 - ox % 8 := by omega
        simp [hplace, hlt, hbit, hreach]
      · have hshort : 7 - col % 8 < 8 - ox % 8 := by omega
        simp [hlt, hshort]
    next hneither =>
      rw [BitVec.getLsbD_zero]
      exact iff_of_false Bool.false_ne_true fun ⟨_, _, _, _⟩ => by omega

/-- XOR with the masks changes the row's two bytes alone. -/
theorem xor_rowMask {cfg : Config} {ox row a : Nat} {b v : Byte} :
    v ^^^ rowMask cfg ox row b a =
      if a = pixelAddr cfg ox row then v ^^^ (b >>> (ox % 8))
      else if a = pixelAddr cfg ox row + 1 ∧ ox / 8 < 7 then v ^^^ (b <<< (8 - ox % 8))
      else v := by
  rw [rowMask, apply_ite (v ^^^ ·), apply_ite (v ^^^ ·), BitVec.xor_zero]

/-- A visible row's masks are 0 outside the display region. -/
theorem rowMask_of_not_inDisplay {cfg : Config} {ox row a : Nat} {b : Byte} (hox : ox < 64) (hrow : row < 32)
    (ha : ¬ inDisplay cfg a) : rowMask cfg ox row b a = 0#8 := by
  have hfirst := pixelAddr_inDisplay (cfg := cfg) hox hrow
  simp only [inDisplay, fbBytes, pixelAddr] at hfirst ha
  rw [rowMask, if_neg (by simp only [pixelAddr]; omega), if_neg (by simp only [pixelAddr]; omega)]

/-- Some byte meets its mask exactly if one of the row's two bytes does. -/
theorem exists_and_rowMask_iff {cfg : Config} {ox row : Nat} {b : Byte} {f : Nat → Byte} :
    (∃ a, f a &&& rowMask cfg ox row b a ≠ 0) ↔
      f (pixelAddr cfg ox row) &&& (b >>> (ox % 8)) ≠ 0 ∨
        (ox / 8 < 7 ∧ f (pixelAddr cfg ox row + 1) &&& (b <<< (8 - ox % 8)) ≠ 0) := by
  constructor
  · rintro ⟨a, ha⟩
    unfold rowMask at ha
    split at ha
    next hfirst => exact .inl (hfirst ▸ ha)
    next =>
      split at ha
      next hsecond => exact .inr ⟨hsecond.2, hsecond.1 ▸ ha⟩
      next => exact absurd BitVec.and_zero ha
  · rintro (h | ⟨hlt, h⟩)
    · exact ⟨_, by rwa [rowMask, if_pos rfl]⟩
    · exact ⟨_, by rwa [rowMask, if_neg (Nat.succ_ne_self _), if_pos ⟨rfl, hlt⟩]⟩

/-- Every bit of a display byte is a pixel (R37). -/
theorem exists_pixel_of_bit {cfg : Config} {a j : Nat} (ha : inDisplay cfg a) (hj : j < 8) :
    ∃ col row, col < 64 ∧ row < 32 ∧ a = pixelAddr cfg col row ∧ j = 7 - col % 8 := by
  simp only [inDisplay, fbBytes] at ha
  refine ⟨(a - cfg.displayBase) % 8 * 8 + (7 - j), (a - cfg.displayBase) / 8, ?_, ?_, ?_, ?_⟩
  · omega
  · omega
  · rw [pixelAddr]; omega
  · omega

/-- A byte is not 0 exactly if one of its bits is 1. -/
theorem byte_ne_zero_iff {b : Byte} : b ≠ 0 ↔ ∃ j, j < 8 ∧ b.getLsbD j = true := by
  simp [BitVec.eq_of_getLsbD_eq_iff]

/-- A row collides exactly where a mask meets a lit bit of the display (R161, R167). -/
theorem rowCollides_iff {ox oy r : Nat} {b : Byte} (hox : ox < 64) (hrow : oy + r < 32) :
    (∃ c, c < 8 ∧ bitLights ox oy r b c ∧ s.pixel (ox + c) (oy + r) = true) ↔
      ∃ a, s.byteAt a &&& rowMask s.cfg ox (oy + r) b a ≠ 0 := by
  constructor
  · rintro ⟨c, hc, hlit, hpix⟩
    obtain ⟨-, hcol, -⟩ := id hlit
    refine ⟨pixelAddr s.cfg (ox + c) (oy + r), byte_ne_zero_iff.mpr ⟨7 - (ox + c) % 8, by omega, ?_⟩⟩
    rw [BitVec.getLsbD_and, Bool.and_eq_true]
    exact ⟨hpix, (rowMask_bit hox hcol hrow).mpr ⟨c, hc, hlit, rfl, rfl⟩⟩
  · rintro ⟨a, ha⟩
    have hin : inDisplay s.cfg a := by
      by_contra hout
      exact ha (by rw [rowMask_of_not_inDisplay hox hrow hout]; exact BitVec.and_zero)
    obtain ⟨j, hj, hbit⟩ := byte_ne_zero_iff.mp ha
    obtain ⟨col, row, hcol, -, rfl, rfl⟩ := exists_pixel_of_bit hin hj
    rw [BitVec.getLsbD_and, Bool.and_eq_true] at hbit
    obtain ⟨c, hc, hlit, rfl, rfl⟩ := (rowMask_bit hox hcol hrow).mp hbit.2
    exact ⟨c, hc, hlit, hbit.1⟩

/-- Where a row inverts the pixels it lights and leaves every byte outside the display region, it XORs each byte with its mask. -/
theorem byteAt_of_toggled_row {ox oy r : Nat} {b : Byte} (hox : ox < 64) (hrow : oy + r < 32) (hframe : DrawFrame s t)
    (hpix : ∀ col row, col < 64 → (t.pixel col row = true ↔
      ¬ (s.pixel col row = true ↔ ∃ c, c < 8 ∧ bitLights ox oy r b c ∧ col = ox + c ∧ row = oy + r))) (a : Nat) :
    t.byteAt a = s.byteAt a ^^^ rowMask s.cfg ox (oy + r) b a := by
  by_cases hin : inDisplay s.cfg a
  · refine BitVec.eq_of_getLsbD_eq fun j hj => ?_
    obtain ⟨col, row, hcol, -, rfl, rfl⟩ := exists_pixel_of_bit hin hj
    have h := hpix col row hcol
    rw [← rowMask_bit (cfg := s.cfg) hox hcol hrow, State.pixel, hframe.cfg] at h
    rw [BitVec.getLsbD_xor]
    exact Bool.eq_iff_iff.mpr (h.trans ((not_congr Bool.eq_iff_iff).symm.trans Bool.xor_iff_ne.symm))
  · rw [rowMask_of_not_inDisplay hox hrow hin]
    exact (hframe.bytes a hin).trans BitVec.xor_zero.symm

/-- Settles O35: the eight bits invert the pixels that the masks of `rowMask` hold, so the row XORs two bytes, and it collides
where a mask meets a lit bit. -/
theorem rowLoopHasItsClosedForm : Obligations.RowLoopHasItsClosedForm := by
  unfold Obligations.RowLoopHasItsClosedForm
  intro s ox oy r b hcfg hwf hox hrow
  obtain ⟨t, hloop, hframe, -, hdraw⟩ := drawBits_complete (ox := ox) (oy := oy) (r := r) (n := 8) (b := b) hcfg
  obtain ⟨hpix, hon, hoff⟩ := hdraw hwf
  rw [rowCollides_iff hox hrow, exists_and_rowMask_iff] at hon hoff
  refine ⟨t, hloop, fun a => ?_, ?_⟩
  · rw [byteAt_of_toggled_row hox hrow hframe hpix]
    exact xor_rowMask
  · split
    next hcollides => exact hon hcollides
    next hclear => exact hoff hclear

end Sys2Proof.Machine
end

section
/-! O39, O40, O49: FX0A in its three states, the timer instructions, and that `aks` is other than Idle only at an FX0A
(44_keypad_timers.md). FX0A starts to wait and keeps waiting at its own address; any other instruction runs only in Idle and
leaves it so; the other agents keep what the fetch reads and never take `aks` out of Idle. -/

namespace Sys2Proof.Machine

variable {s t : State} {x : Nibble} {w : Word} {now : Nat}

/-! ### FX0A -/

theorem keyByte_toNat (k : Nibble) : (keyByte k).toNat = k.toNat := BitVec.toNat_setWidth_of_le (by decide)

/-- The rewind of FX0A undoes the advance of its fetch (R71, R172). -/
theorem advance_rewind (s : State) : s.advance.rewind = s :=
  congrArg s.setPc (BitVec.add_sub_cancel s.pc 2)

/-- FX0A starts to wait (R172). -/
theorem exec_ldKey_of_idle (x : Nibble) (h : s.aks = .idle) : exec (.ldKey x) s = .next (s.setAks .awaitingPress) := by
  simp only [exec, execLdKey, h]
  exact congrArg (fun u : State => Host.Outcome.next (u.setAks .awaitingPress)) (advance_rewind s)

/-- FX0A keeps waiting, and nothing changes (R172). -/
theorem exec_ldKey_of_awaitingPress (x : Nibble) (h : s.aks = .awaitingPress) : exec (.ldKey x) s = .next s := by
  simp only [exec, execLdKey, h, advance_rewind]

/-- FX0A delivers the captured key (R172). -/
theorem exec_ldKey_of_captured {k : Nibble} (x : Nibble) (h : s.aks = .captured k) :
    exec (.ldKey x) s = .next ((s.advance.setReg x (keyByte k)).setAks .idle) := by
  simp only [exec, execLdKey, h]

/-- Settles O39, by the state FX0A finds. -/
theorem awaitKeyInItsThreeStates : Obligations.AwaitKeyInItsThreeStates := by
  unfold Obligations.AwaitKeyInItsThreeStates
  refine fun s x => ⟨fun h => ?_, exec_ldKey_of_awaitingPress x, fun k h => ?_⟩
  · exact ⟨_, exec_ldKey_of_idle x h, rfl, fun _ => rfl⟩
  · have hkey : (s.advance.setReg x (keyByte k)).reg x = keyByte k := State.reg_setReg_self _ x _
    exact ⟨_, exec_ldKey_of_captured x h, (congrArg BitVec.toNat hkey).trans (keyByte_toNat k), rfl, rfl, rfl,
      sameRegsOutside_setReg s.advance x _, fun _ => rfl⟩

/-! ### The timers -/

/-- Settles O40: FX07 writes V[X] alone, the other two one timer. -/
theorem timerAccess : Obligations.TimerAccess := by
  unfold Obligations.TimerAccess
  exact fun s x => ⟨⟨_, rfl, State.reg_setReg_self _ x _, rfl, onlyRegs_advance_setReg s x _⟩,
    ⟨_, rfl, rfl, fun _ _ => rfl, fun _ => rfl⟩, ⟨_, rfl, rfl, fun _ _ => rfl, fun _ => rfl⟩⟩

/-! ### What keeps R176 -/

/-- The fetch reads these three parts of the state and no other (R71). -/
theorem fetch_congr (hcfg : t.cfg = s.cfg) (hmem : t.mem = s.mem) (hpc : t.pc = s.pc) : fetch t = fetch s := by
  simp only [fetch, memRead, State.byteAt, hcfg, hmem, hpc]

/-- R176 stays true where the next fetch is the same and `aks` does not leave Idle. -/
theorem State.AwaitsAtKeyInstr.congr (hs : s.AwaitsAtKeyInstr) (hcfg : t.cfg = s.cfg) (hmem : t.mem = s.mem)
    (hpc : t.pc = s.pc) (haks : s.aks = .idle → t.aks = .idle) : t.AwaitsAtKeyInstr := fun ht => by
  rw [fetch_congr hcfg hmem hpc]
  exact hs (mt haks ht)

theorem awaitsAtKeyInstr_of_idle (h : s.aks = .idle) : s.AwaitsAtKeyInstr := fun hne => absurd h hne

/-- Where the fetched word is no FX0A, the machine does not wait. -/
theorem State.AwaitsAtKeyInstr.idle_of_other (hs : s.AwaitsAtKeyInstr) (hf : fetch s = .ok w)
    (hw : ∀ x, decodeWord w ≠ .ok (.ldKey x)) : s.aks = .idle := by
  by_contra hne
  obtain ⟨x, hx⟩ := hs hne
  obtain rfl : w = encode (.ldKey x) := Except.ok.inj (hf.symm.trans hx)
  exact hw x (decodeWord_encode rfl)

/-! ### An executor invocation -/

/-- FX0A waits at its own address, and is Idle when it goes on (R172). -/
theorem exec_ldKey_awaits (hf : fetch s = .ok (encode (.ldKey x))) (h : exec (.ldKey x) s = .next t) :
    t.AwaitsAtKeyInstr := by
  cases haks : s.aks with
  | idle =>
    obtain rfl := Host.Outcome.next.inj ((exec_ldKey_of_idle x haks).symm.trans h)
    exact fun _ => ⟨x, (fetch_congr rfl rfl rfl).trans hf⟩
  | awaitingPress =>
    obtain rfl := Host.Outcome.next.inj ((exec_ldKey_of_awaitingPress x haks).symm.trans h)
    exact fun _ => ⟨x, hf⟩
  | captured k =>
    obtain rfl := Host.Outcome.next.inj ((exec_ldKey_of_captured x haks).symm.trans h)
    exact awaitsAtKeyInstr_of_idle rfl

/-- By whether the invocation runs FX0A: one that does not starts in Idle and leaves `aks` alone. -/
theorem execute_keeps_awaits (hs : s.AwaitsAtKeyInstr) (h : execute s = .next t) : t.AwaitsAtKeyInstr := by
  rcases execute_cases h with ⟨w, i, hf, hd, h⟩ | ⟨w, e, hf, hd, rfl⟩
  · by_cases hi : ∃ x, i = .ldKey x
    · obtain ⟨x, rfl⟩ := hi
      obtain ⟨hw, -⟩ := encode_of_decodeWord hd
      exact exec_ldKey_awaits (hf.trans (congrArg _ hw.symm)) h
    · have hne : ∀ x, i ≠ .ldKey x := not_exists.mp hi
      have hidle := hs.idle_of_other hf fun x hx => hne x (Except.ok.inj (hd.symm.trans hx))
      exact awaitsAtKeyInstr_of_idle ((exec_aks h hne).trans hidle)
  · have hidle := hs.idle_of_other hf (by simp [hd])
    exact awaitsAtKeyInstr_of_idle hidle

/-! ### The other agents -/

/-- A key event captures only while a key is awaited (R210, R211). -/
theorem keyEvent_aks_of_idle (e : KeyEvent) (h : s.aks = .idle) : (keyEvent e s).aks = .idle := by
  cases e with
  | down k => simp only [keyEvent, keyPressed, h, State.setKey_aks]
  | up k => exact h

theorem State.AwaitsAtKeyInstr.keyEvent (hs : s.AwaitsAtKeyInstr) (e : KeyEvent) :
    (keyEvent e s).AwaitsAtKeyInstr :=
  hs.congr (by rw [keyEvent_only]) (by rw [keyEvent_only]) (by rw [keyEvent_only]) (keyEvent_aks_of_idle e)

theorem State.AwaitsAtKeyInstr.drainEvents (hs : s.AwaitsAtKeyInstr) (events : List KeyEvent) :
    (drainEvents events s).AwaitsAtKeyInstr := by
  induction events generalizing s with
  | nil => exact hs
  | cons e rest ih => exact ih (hs.keyEvent e)

theorem State.AwaitsAtKeyInstr.refresh (hs : s.AwaitsAtKeyInstr) : (refresh s).AwaitsAtKeyInstr := by
  unfold Machine.refresh
  split
  · exact hs.congr rfl rfl rfl id
  · exact hs

theorem insnGate_keeps_awaits (hs : s.AwaitsAtKeyInstr) (h : insnGate now s = .next t) : t.AwaitsAtKeyInstr := by
  rcases insnGate_next.mp h with ⟨-, u, hu, rfl⟩ | ⟨-, rfl⟩
  · exact (execute_keeps_awaits hs hu).congr rfl rfl rfl id
  · exact hs

theorem timerGate_keeps_awaits (hs : s.AwaitsAtKeyInstr) : (timerGate now s).AwaitsAtKeyInstr := by
  rw [timerGate_only]; exact hs.congr rfl rfl rfl id

theorem dispGate_keeps_awaits (hs : s.AwaitsAtKeyInstr) : (dispGate now s).AwaitsAtKeyInstr := by
  rw [dispGate_only]; exact hs.congr rfl rfl rfl id

theorem poll_keeps_awaits (hs : s.AwaitsAtKeyInstr) (h : poll now s = .next t) : t.AwaitsAtKeyInstr := by
  obtain ⟨u, hu, rfl⟩ := poll_next.mp h
  exact dispGate_keeps_awaits (timerGate_keeps_awaits (insnGate_keeps_awaits hs hu))

/-! ### Turns and steps -/

theorem iteration_keeps_awaits {events : List KeyEvent} {quit : Bool} (hs : s.AwaitsAtKeyInstr)
    (h : iteration events now quit s = .next t) : t.AwaitsAtKeyInstr := by
  obtain ⟨-, u, hu, rfl⟩ := iteration_next.mp h
  have hsampled : ((drainEvents events s).sampleNow now).AwaitsAtKeyInstr :=
    (hs.drainEvents events).congr rfl rfl rfl id
  have hpolled : u.AwaitsAtKeyInstr := poll_keeps_awaits hsampled hu
  cases quit
  · exact hpolled
  · exact hpolled.congr rfl rfl rfl id

theorem perform_keeps_awaits {a : Action} (hs : s.AwaitsAtKeyInstr) (h : perform a s = .next t) :
    t.AwaitsAtKeyInstr := by
  cases a with
  | execute => exact execute_keeps_awaits hs h
  | key e => exact Host.Outcome.next.inj h ▸ hs.keyEvent e
  | tick => exact Host.Outcome.next.inj h ▸ hs.congr rfl rfl rfl id
  | refresh => exact Host.Outcome.next.inj h ▸ hs.refresh
  | stop => exact Host.Outcome.next.inj h ▸ hs.congr rfl rfl rfl id

theorem takeTurn_keeps_awaits {turn : Turn} (hs : s.AwaitsAtKeyInstr) (h : takeTurn turn s = .next t) :
    t.AwaitsAtKeyInstr := by
  cases turn with
  | iteration events now quit => exact iteration_keeps_awaits hs h
  | act a => exact perform_keeps_awaits hs h

/-- Settles O49: a step is nothing, an executor invocation or a host's turn, and each keeps R176. -/
theorem stepKeepsAwaitingAtKeyInstruction : Obligations.StepKeepsAwaitingAtKeyInstruction := by
  unfold Obligations.StepKeepsAwaitingAtKeyInstruction
  intro s t hs h
  rcases step_cases h with ⟨-, rfl⟩ | ⟨-, -, h⟩ | ⟨turn, rest, -, -, h⟩
  · exact hs
  · exact execute_keeps_awaits hs h
  · have hturns : (s.setTurns rest).AwaitsAtKeyInstr := hs.congr rfl rfl rfl id
    exact takeTurn_keeps_awaits hturns h

end Sys2Proof.Machine
end

section
/-! O41 to O44 and O46: the key events, the tick, and what a poll and an iteration do (60_exceptions.md). The timer gate and the
display gate are each described once, by the comparison of R222, and a poll's and an iteration's effects are read off. -/

namespace Sys2Proof.Machine

variable {s t u v : State} {now : Nat} {quit : Bool} {events : List KeyEvent}

/-! ### The key events and the tick -/

/-- KeyDown as two writes, one of `keys` and one of `aks` (R210). -/
theorem keyPressed_eq (k : Nibble) (s : State) :
    keyPressed k s = (s.setKey k true).setAks (if s.aks = .awaitingPress then .captured k else s.aks) := by
  unfold keyPressed
  split
  next h => rw [if_pos h]
  next h => rw [if_neg (by simp [h])]; rfl
  next h => rw [if_neg (by simp [h])]; rfl

/-- Settles O41: a key-down is one write of `keys` and one of `aks`, a key-up one write of `keys`. -/
theorem keyEventsChangeOnlyTheKeypad : Obligations.KeyEventsChangeOnlyTheKeypad := by
  unfold Obligations.KeyEventsChangeOnlyTheKeypad
  intro s k
  rw [keyPressed_eq]
  exact ⟨fun j => State.keyDown_setKey s k j true, rfl, rfl, fun j => State.keyDown_setKey s k j false, rfl⟩

/-- Settles O42: each timer is counted down by itself. -/
theorem tickCountsDownToZero : Obligations.TickCountsDownToZero := by
  unfold Obligations.TickCountsDownToZero
  exact fun s => ⟨countDown_toNat s.dt, countDown_toNat s.st, rfl⟩

/-! ### The poll -/

/-- The instruction gate by the comparison of R222: one executor invocation if it is due, and its timestamp (R221, R223). -/
theorem insnGate_effect (h : insnGate now s = .next v) :
    ∃ u,
      (if (now - s.gates.insn) * s.cfg.instructionsPerSecond ≥ s.cfg.ticksPerSecond then execute s = .next u else u = s) ∧
      v.gates.insn =
        (if (now - s.gates.insn) * s.cfg.instructionsPerSecond ≥ s.cfg.ticksPerSecond then now else s.gates.insn) ∧
      v = { u with gates := v.gates } := by
  rcases insnGate_next.mp h with ⟨hdue, u, hu, rfl⟩ | ⟨hidle, rfl⟩
  · have hdue := gateDue_iff.mp hdue
    exact ⟨u, by rwa [if_pos hdue], (if_pos hdue).symm, rfl⟩
  · have hidle := mt gateDue_iff.mpr (Bool.eq_false_iff.mp hidle)
    exact ⟨v, by rw [if_neg hidle], (if_neg hidle).symm, rfl⟩

/-- The timer gate by the comparison of R222. -/
theorem timerGate_eq (now : Nat) (s : State) :
    timerGate now s =
      if (now - s.gates.timer) * s.cfg.timerFrequency ≥ s.cfg.ticksPerSecond then (tick s).setLfTimer now else s := by
  simp only [timerGate, gateDue_iff]

/-- The display gate by the comparison of R222, only when decoupled (R225). -/
theorem dispGate_eq (now : Nat) (s : State) :
    dispGate now s =
      if s.cfg.decoupleDisplay = true ∧ (now - s.gates.disp) * s.cfg.frameRate ≥ s.cfg.ticksPerSecond then
        (present s).setLfDisp now
      else s := by
  simp only [dispGate, Bool.and_eq_true, gateDue_iff]

theorem timerGate_cfg (now : Nat) (s : State) : (timerGate now s).cfg = s.cfg := by rw [timerGate_only]

theorem timerGate_gates_disp (now : Nat) (s : State) : (timerGate now s).gates.disp = s.gates.disp := by rw [timerGate_only]

theorem timerGate_framebuffer (now : Nat) (s : State) : (timerGate now s).framebuffer = s.framebuffer := by
  rw [timerGate_only]; rfl

theorem timerGate_gates_timer (now : Nat) (s : State) :
    (timerGate now s).gates.timer =
      if (now - s.gates.timer) * s.cfg.timerFrequency ≥ s.cfg.ticksPerSecond then now else s.gates.timer := by
  rw [timerGate_eq, apply_ite (fun u : State => u.gates.timer)]; rfl

theorem timerGate_dt_toNat (now : Nat) (s : State) :
    (timerGate now s).dt.toNat =
      if (now - s.gates.timer) * s.cfg.timerFrequency ≥ s.cfg.ticksPerSecond then s.dt.toNat - 1 else s.dt.toNat := by
  rw [timerGate_eq, apply_ite (fun u : State => u.dt.toNat), State.setLfTimer_dt, tick_dt, countDown_toNat]

theorem timerGate_st_toNat (now : Nat) (s : State) :
    (timerGate now s).st.toNat =
      if (now - s.gates.timer) * s.cfg.timerFrequency ≥ s.cfg.ticksPerSecond then s.st.toNat - 1 else s.st.toNat := by
  rw [timerGate_eq, apply_ite (fun u : State => u.st.toNat), State.setLfTimer_st, tick_st, countDown_toNat]

theorem dispGate_gates_disp (now : Nat) (s : State) :
    (dispGate now s).gates.disp =
      if s.cfg.decoupleDisplay = true ∧ (now - s.gates.disp) * s.cfg.frameRate ≥ s.cfg.ticksPerSecond then now
      else s.gates.disp := by
  rw [dispGate_eq, apply_ite (fun u : State => u.gates.disp)]; rfl

theorem dispGate_out (now : Nat) (s : State) :
    (dispGate now s).io.out =
      if s.cfg.decoupleDisplay = true ∧ (now - s.gates.disp) * s.cfg.frameRate ≥ s.cfg.ticksPerSecond then
        s.io.out ++ [.present s.framebuffer]
      else s.io.out := by
  rw [dispGate_eq, apply_ite (fun u : State => u.io.out)]; rfl

/-- Settles O43: the instruction gate leads to `v`, whose other gates are as before; the timer gate and the display gate follow,
each touching its own timestamp and what its action writes. -/
theorem pollFiresEachDueGateOnce : Obligations.PollFiresEachDueGateOnce := by
  unfold Obligations.PollFiresEachDueGateOnce
  intro now s t h
  obtain ⟨v, hv, rfl⟩ := poll_next.mp h
  obtain ⟨hcfg, htimer, hdisp⟩ := insnGate_frame hv
  obtain ⟨u, hu, hinsn, hvu⟩ := insnGate_effect hv
  have hdt : v.dt = u.dt := by rw [hvu]
  have hst : v.st = u.st := by rw [hvu]
  have hout : v.io.out = u.io.out := by rw [hvu]
  have hsnapshot : v.framebuffer = u.framebuffer := by rw [hvu]; rfl
  refine ⟨?_, ?_, ?_, u, hu, ?_, ?_, ?_, ?_, ?_, ?_⟩
  · rw [dispGate_only, timerGate_only, hinsn]
  · rw [dispGate_only, timerGate_gates_timer, hcfg, htimer]
  · rw [dispGate_gates_disp, timerGate_cfg, timerGate_gates_disp, hcfg, hdisp]
  · rw [dispGate_only, timerGate_dt_toNat, hcfg, htimer, hdt]
  · rw [dispGate_only, timerGate_st_toNat, hcfg, htimer, hst]
  · rw [dispGate_out, timerGate_cfg, timerGate_gates_disp, timerGate_out, timerGate_framebuffer, hcfg, hdisp, hout,
      hsnapshot]
  · rw [dispGate_only, timerGate_only, hvu]
  · simp [State.framebuffer, fbBytes]
  · exact fun j => framebuffer_getElem? u

/-! ### The iteration -/

/-- A poll whose instruction gate is not due (R221, R223). -/
theorem poll_of_idle (hidle : (now - s.gates.insn) * s.cfg.instructionsPerSecond < s.cfg.ticksPerSecond) :
    poll now s = .next (dispGate now (timerGate now s)) :=
  poll_next.mpr ⟨s, insnGate_next.mpr (.inr ⟨Bool.eq_false_iff.mpr (mt gateDue_iff.mp hidle.not_ge), rfl⟩), rfl⟩

/-- A poll whose instruction gate is due, and whose invocation completes (R221, R223). -/
theorem poll_of_execute (hdue : (now - s.gates.insn) * s.cfg.instructionsPerSecond ≥ s.cfg.ticksPerSecond)
    (hv : execute s = .next v) : poll now s = .next (dispGate now (timerGate now (v.setLfInsn now))) :=
  poll_next.mpr ⟨_, insnGate_next.mpr (.inl ⟨gateDue_iff.mpr hdue, v, hv, rfl⟩), rfl⟩

/-- A poll whose instruction gate is due, and whose invocation faults (R203, R221). -/
theorem poll_of_fault {f : Fault} (hdue : (now - s.gates.insn) * s.cfg.instructionsPerSecond ≥ s.cfg.ticksPerSecond)
    (hf : execute s = .fault f) : poll now s = .fault f := by
  rw [poll, insnGate, if_pos (gateDue_iff.mpr hdue), hf]
  rfl

/-- What the claim says follows the invocation is the last two gates and the test of `quit`: no invocation changes what they
are tested by. -/
theorem restOfIteration_eq (now : Nat) (quit : Bool) (hcfg : v.cfg = s.cfg) (htimer : v.gates.timer = s.gates.timer)
    (hdisp : v.gates.disp = s.gates.disp) :
    s.restOfIteration now quit v =
      if quit then stopLoop (dispGate now (timerGate now v)) else dispGate now (timerGate now v) := by
  rw [dispGate_eq, timerGate_cfg, timerGate_gates_disp, hcfg, hdisp, timerGate_eq, hcfg, htimer]
  rfl

/-- An iteration whose clock did not run backwards (R227). -/
theorem iteration_eq (hnow : s.io.now ≤ now) :
    iteration events now quit s =
      andThen (poll now ((drainEvents events s).sampleNow now)) (fun t => .next (if quit then stopLoop t else t)) :=
  if_neg hnow.not_gt

/-- Settles O44: the drained and sampled state has the gates of the start, so the poll goes by whether its instruction gate is
due and what the invocation answers. -/
theorem iterationDrainsThenPolls : Obligations.IterationDrainsThenPolls := by
  unfold Obligations.IterationDrainsThenPolls
  intro s u events now quit hnow hu
  rw [← drainEvents_eq_foldl] at hu
  have hcfg : u.cfg = s.cfg := by rw [hu, drainEvents_only]; rfl
  have hgates : u.gates = s.gates := by rw [hu, drainEvents_only]; rfl
  rw [iteration_eq hnow, ← hu]
  refine ⟨fun hidle => ?_, fun hdue => ?_⟩
  · rw [poll_of_idle (by rwa [hcfg, hgates]), restOfIteration_eq now quit hcfg (by rw [hgates]) (by rw [hgates])]
    rfl
  · have hdue : (now - u.gates.insn) * u.cfg.instructionsPerSecond ≥ u.cfg.ticksPerSecond := by rwa [hcfg, hgates]
    refine ⟨fun v hv => ?_, fun f hf => ?_⟩
    · have hframe := execute_frame hv
      have hother : v.gates = s.gates := hframe.gates.trans hgates
      rw [poll_of_execute hdue hv, restOfIteration_eq (v := v.setLfInsn now) now quit (hframe.cfg.trans hcfg)
        (by rw [State.setLfInsn_gates, hother]) (by rw [State.setLfInsn_gates, hother])]
      rfl
    · rw [poll_of_fault hdue hf]
      rfl

/-! ### The end of the loop -/

/-- An iteration with `quit` is the same iteration without it, followed by the stop (R235). -/
theorem iteration_quit (events : List KeyEvent) (now : Nat) (s : State) :
    iteration events now true s = andThen (iteration events now false s) (fun t => .next (stopLoop t)) := by
  unfold iteration
  split
  · rfl
  · cases poll now ((drainEvents events s).sampleNow now) <;> rfl

theorem andThen_fault {r : Result} {g : State → State} {f : Fault} :
    andThen r (fun t => .next (g t)) = .fault f ↔ r = .fault f := by
  cases r <;> simp [andThen]

theorem andThen_refused {r : Result} {g : State → State} {e : Refusal} :
    andThen r (fun t => .next (g t)) = .refused e ↔ r = .refused e := by
  cases r <;> simp [andThen]

theorem step_of_stopped (h : s.io.stopped = true) : step s = .next s := if_pos h

/-- Settles O46: the stop that follows an iteration turns its end into a stopped one, and a fault or a refusal passes through. -/
theorem quitEndsTheLoop : Obligations.QuitEndsTheLoop := by
  unfold Obligations.QuitEndsTheLoop
  simp only [iteration_quit]
  refine ⟨fun s t events now h => ?_, fun s t events now h => ?_, fun s events now f => andThen_fault.symm,
    fun s events now r => andThen_refused.symm, fun s => step_of_stopped⟩
  · rw [h]; rfl
  · obtain ⟨v, hv, hstop⟩ := andThen_next.mp h
    obtain rfl := Host.Outcome.next.inj hstop
    exact ⟨rfl, v, hv, rfl⟩

end Sys2Proof.Machine
end

section
/-! O58, O59: which instructions can fault, and what each appends to the log of output events. -/

namespace Sys2Proof.Machine

variable {i : Instr} {s t : State}

/-! ### Faults and refusals -/

theorem finish_ne_refused {r : Except Fault State} {g : State → State} {e : Refusal} : finish r g ≠ .refused e := by
  cases r <;> simp [finish]

/-- 00E0 stores inside memory under an admitted configuration, canonical memory or not (R8, R160). -/
theorem exec_cls_completes (hcfg : s.cfg.wf = true) : ∃ t, exec .cls s = .next t := by
  have hdisplay := (Config.bounds hcfg).display
  obtain ⟨t, ht, -⟩ := forUp_completes (n := fbBytes) (k := s.cfg.displayBase) (s := s.advance)
    (body := fun a u => memWrite a 0 u) (P := fun _ u => u.cfg = s.cfg)
    (fun a u _ hlt hu => ⟨_, memWrite_ok (by rw [hu]; exact hlt.trans_le hdisplay), hu⟩) rfl
  exact ⟨_, finish_next.mpr ⟨t, ht, rfl⟩⟩

/-- Every instruction but the five that access memory answers a next state in every state (R56, R203). -/
theorem exec_next_or_accesses_memory (i : Instr) (s : State) :
    (∃ t, exec i s = .next t) ∨ i = .cls ∨ (∃ x y n, i = .drw x y n) ∨ (∃ x, i = .ldDigits x) ∨
      (∃ x, i = .storeRegs x) ∨ ∃ x, i = .loadRegs x := by
  cases i
  case cls => exact .inr (.inl rfl)
  case drw x y n => exact .inr (.inr (.inl ⟨x, y, n, rfl⟩))
  case ldDigits x => exact .inr (.inr (.inr (.inl ⟨x, rfl⟩)))
  case storeRegs x => exact .inr (.inr (.inr (.inr (.inl ⟨x, rfl⟩))))
  case loadRegs x => exact .inr (.inr (.inr (.inr (.inr ⟨x, rfl⟩))))
  case ret | call a | skp x | sknp x | ldKey x =>
    simp only [exec, execRet, execCall, execSkp, execSknp, execLdKey]
    split <;> exact .inl ⟨_, rfl⟩
  all_goals exact .inl ⟨_, rfl⟩

/-- Settles O58: only the five that access memory may end otherwise, and then in a fault; 00E0's display lies inside memory. -/
theorem onlyDataAccessesFault : Obligations.OnlyDataAccessesFault := by
  unfold Obligations.OnlyDataAccessesFault
  refine ⟨fun i s r => ?_, fun i s hcfg hdrw hdigits hstore hload => ?_⟩
  · rcases exec_next_or_accesses_memory i s with ⟨t, ht⟩ | rfl | ⟨x, y, n, rfl⟩ | ⟨x, rfl⟩ | ⟨x, rfl⟩ | ⟨x, rfl⟩
    · rw [ht]; exact nofun
    all_goals exact finish_ne_refused
  · rcases exec_next_or_accesses_memory i s with ht | rfl | ⟨x, y, n, h⟩ | ⟨x, h⟩ | ⟨x, h⟩ | ⟨x, h⟩
    · exact ht
    · exact exec_cls_completes hcfg
    · exact absurd h (hdrw x y n)
    · exact absurd h (hdigits x)
    · exact absurd h (hstore x)
    · exact absurd h (hload x)

/-! ### The log -/

/-- What an instruction that leads from `s` to `t` appends to the log: the present event of R166, or a diagnostic of R202. -/
def emitted (i : Instr) (s t : State) : List Output :=
  match i with
  | .cls | .drw _ _ _ => if s.cfg.decoupleDisplay then [] else [.present t.framebuffer]
  | .call a => if s.sp.val = 16 then [.diag ⟨.stackOverflow, encode (.call a), s.pc⟩] else []
  | .ret => if s.sp.val = 0 then [.diag ⟨.stackUnderflow, encode .ret, s.pc⟩] else []
  | .skp x => if (s.reg x).toNat > 15 then [.diag ⟨.keyIndexOutOfRange, encode (.skp x), s.pc⟩] else []
  | .sknp x => if (s.reg x).toNat > 15 then [.diag ⟨.keyIndexOutOfRange, encode (.sknp x), s.pc⟩] else []
  | _ => []

/-- What 00E0 or DXYN appends, its loop having left the configuration and the log alone. -/
theorem presentUnlessDecoupled_out {u : State} (hcfg : u.cfg = s.cfg) (hio : u.io = s.io) :
    (presentUnlessDecoupled u).io.out =
      s.io.out ++ if s.cfg.decoupleDisplay then [] else [.present (presentUnlessDecoupled u).framebuffer] := by
  unfold presentUnlessDecoupled
  rw [hcfg, ← hio]
  split
  · exact (List.append_nil _).symm
  · rfl

/-- No key is named exactly by a value above 15 (R170, R171). -/
theorem namedKey_eq_none {x : Nibble} : s.namedKey x = none ↔ (s.reg x).toNat > 15 := by
  simp [State.namedKey]

/-- An instruction that leaves the log alone, and is none of those that append. -/
theorem out_of_silent (hemit : emitted i s t = []) (hout : t.io.out = s.io.out) :
    t.io.out = s.io.out ++ emitted i s t := by
  rw [hemit, List.append_nil, hout]

/-- Every instruction appends that and nothing else. -/
theorem exec_out (h : exec i s = .next t) : t.io.out = s.io.out ++ emitted i s t := by
  cases i
  case cls =>
    obtain ⟨u, hu, rfl⟩ := finish_next.mp h
    have honly := (forUp_store_frame (addr := fun a => a) (val := fun _ _ => 0) hu).1
    exact presentUnlessDecoupled_out (by rw [honly]; rfl) (by rw [honly]; rfl)
  case drw x y n =>
    obtain ⟨u, hu, rfl⟩ := finish_next.mp h
    have honly := (drawRows_frame hu).only
    exact presentUnlessDecoupled_out (by rw [honly]; rfl) (by rw [honly]; rfl)
  case ret =>
    cases hsp : s.sp.val with
    | zero =>
      obtain rfl := Host.Outcome.next.inj ((exec_ret_of_empty hsp).symm.trans h)
      rw [emitted, if_pos hsp]; rfl
    | succ k =>
      obtain rfl := Host.Outcome.next.inj ((exec_ret_of_succ (by omega) hsp).symm.trans h)
      rw [emitted, if_neg (by omega), List.append_nil]
  case call a =>
    rcases Nat.lt_or_eq_of_le (Nat.le_of_lt_succ s.sp.isLt) with hsp | hsp
    · obtain rfl := Host.Outcome.next.inj ((exec_call_of_lt a hsp).symm.trans h)
      rw [emitted, if_neg hsp.ne, List.append_nil]
    · obtain rfl := Host.Outcome.next.inj ((exec_call_of_full a hsp).symm.trans h)
      rw [emitted, if_pos hsp]; rfl
  case skp x | sknp x =>
    simp only [exec, execSkp, execSknp] at h
    split at h
    next k hk =>
      rw [← Host.Outcome.next.inj h, skipIf_only, emitted, if_neg (by simp [← namedKey_eq_none, hk]), List.append_nil]
      rfl
    next hk =>
      rw [← Host.Outcome.next.inj h, emitted, if_pos (namedKey_eq_none.mp hk)]
      rfl
  case ldDigits x =>
    obtain ⟨u, hu, rfl⟩ := finish_next.mp h
    exact out_of_silent rfl (by rw [(forUp_store_frame hu).1]; rfl)
  case storeRegs x =>
    obtain ⟨u, hu, rfl⟩ := finish_next.mp h
    exact out_of_silent rfl (by rw [advanceIndex_only, (forUp_store_frame hu).1]; rfl)
  case loadRegs x =>
    obtain ⟨u, hu, rfl⟩ := finish_next.mp h
    exact out_of_silent rfl (by rw [advanceIndex_only, forUp_load_frame hu]; rfl)
  case ldKey x =>
    simp only [exec, execLdKey] at h
    split at h <;> exact out_of_silent rfl (Host.Outcome.next.inj h ▸ rfl)
  case addI x => exact out_of_silent rfl (by rw [← Host.Outcome.next.inj h, rangeFlag_only]; rfl)
  case seImm x nn | sneImm x nn | seReg x y | sneReg x y =>
    exact out_of_silent rfl (by rw [← Host.Outcome.next.inj h, skipIf_only]; rfl)
  all_goals exact out_of_silent rfl (Host.Outcome.next.inj h ▸ rfl)

theorem countP_diag_ite (p : Prop) [Decidable p] (d : Diag) :
    (if p then [Output.diag d] else []).countP (fun o => !o.isPresent) = if p then 1 else 0 := by
  split <;> rfl

/-- How many diagnostics an instruction emits (R202): a present event is none. -/
theorem emitted_diags (i : Instr) (s t : State) :
    (emitted i s t).countP (fun o => !o.isPresent) =
      if ((∃ a, i = .call a) ∧ s.sp.val = 16) ∨ (i = .ret ∧ s.sp.val = 0) ∨
        (∃ x, (i = .skp x ∨ i = .sknp x) ∧ (s.reg x).toNat > 15) then 1 else 0 := by
  cases i
  case cls | drw => rw [emitted]; split <;> simp [Output.isPresent]
  case call | ret | skp | sknp => simp [emitted, countP_diag_ite]
  all_goals simp [emitted]

/-- Settles O59: the diagnostics after are those before and those emitted. -/
theorem diagnosticsOnlyWhereListed : Obligations.DiagnosticsOnlyWhereListed := by
  unfold Obligations.DiagnosticsOnlyWhereListed
  intro i s t h
  rw [State.diags, exec_out h, List.countP_append, emitted_diags, State.diags]

end Sys2Proof.Machine
end

section
/-! O53 and O52: what a load leaves. Before the load every byte is the font's or zero, and an admitted program covers no byte
of the font, so each of the three parts of memory reads as R43 and R42 say. -/

namespace Sys2Proof.Machine

variable {cfg : Config} {program : List Byte} {s : State} {a j : Nat}

theorem resetByte_font (h : j < 80) : resetByte cfg (cfg.fontBase + j) = cfg.font[j] := by
  simp [resetByte, h]

theorem resetByte_outside_font (h : ¬ (cfg.fontBase ≤ a ∧ a < cfg.fontBase + 80)) : resetByte cfg a = 0 := by
  unfold resetByte
  split
  · next hle => exact List.getD_eq_default _ _ (by rw [Vector.length_toList]; omega)
  · rfl

/-- A loaded byte is the program's where the program lies, and as at reset everywhere else (R42, R43). -/
theorem byteAt_of_boot (h : boot cfg program = .ok s) (a : Nat) :
    s.byteAt a = if hin : cfg.programBase ≤ a ∧ a < cfg.programBase + program.length then program[a - cfg.programBase]
      else resetByte cfg a := by
  obtain ⟨-, hload, rfl⟩ := boot_cases h
  exact (loadBytes_spec (Memory.wf_nil cfg) (loadAdmitted_iff.mp hload).1).2 a

/-- Settles O53: the admission test keeps the program off the font, which therefore reads as at reset. -/
theorem bootPlacesFontAndProgram : Obligations.BootPlacesFontAndProgram := by
  unfold Obligations.BootPlacesFontAndProgram
  intro cfg program s h
  obtain ⟨-, hload, -⟩ := boot_cases h
  obtain ⟨-, hapart⟩ := loadAdmitted_iff.mp hload
  refine ⟨fun j hj => ?_, fun j hj => ?_, fun a hprogram hfont => ?_⟩
  · rw [byteAt_of_boot h, dif_pos (by omega)]
    simp
  · rw [byteAt_of_boot h, dif_neg (by unfold fontBytes at hapart; omega), resetByte_font hj]
  · rw [byteAt_of_boot h, dif_neg hprogram, resetByte_outside_font hfont]

/-- The power-on state meets the invariant with any memory in canonical form: its gates are at its clock. -/
theorem powerOn_inv {m : Memory} (hcfg : cfg.wf = true) (hm : Memory.wf cfg m = true) :
    State.Inv { State.powerOn cfg with mem := m } :=
  ⟨hcfg, hm, le_rfl, le_rfl, le_rfl⟩

/-- PROGRAM_BASE is below MEM_SIZE, so it fits in `pc` (R8, R42). -/
theorem powerOn_pc_toNat (hcfg : cfg.wf = true) : (State.powerOn cfg).pc.toNat = cfg.programBase := by
  have hbounds := Config.bounds hcfg
  have hmost := hbounds.most
  have hprogram := hbounds.program
  exact Nat.mod_eq_of_lt (by omega)

/-- Settles O52: a load changes the power-on state in `mem` alone, and leaves `mem` in canonical form. -/
theorem bootMeetsInvariant : Obligations.BootMeetsInvariant := by
  unfold Obligations.BootMeetsInvariant
  refine ⟨powerOn_inv (by decide) (Memory.wf_nil _), awaitsAtKeyInstr_of_idle rfl, fun cfg program s h => ?_⟩
  obtain ⟨hcfg, hload, rfl⟩ := boot_cases h
  have hm := (loadBytes_spec (Memory.wf_nil cfg) (loadAdmitted_iff.mp hload).1).1
  exact ⟨powerOn_inv hcfg hm, awaitsAtKeyInstr_of_idle rfl, powerOn_pc_toNat hcfg⟩

end Sys2Proof.Machine
end

section
/-! O26, O30, O36: FX1E's flag, and the ascending loops of FX33, FX55, FX65 and DXYN where a byte they use lies beyond memory. -/

namespace Sys2Proof.Machine

variable {s : State}

/-! ### FX1E -/

/-- VF after FX1E's flag write (R141, D9). -/
theorem rangeFlag_reg_vf (s : State) (sum : Nat) :
    (s.rangeFlag sum).reg vf =
      if sum ≥ s.cfg.memSize then 1 else if s.cfg.fx1eClearsVf = true then 0 else s.reg vf := by
  simp only [State.rangeFlag, reachesEnd, decide_eq_true_eq]
  split
  · rw [State.reg_setFlag, if_pos rfl]; rfl
  · split
    · rw [State.reg_setFlag, if_pos rfl]; rfl
    · rfl

/-- No other register is written (R141). -/
theorem rangeFlag_reg_of_ne (sum : Nat) {z : Nibble} (hz : z ≠ vf) : (s.rangeFlag sum).reg z = s.reg z := by
  unfold State.rangeFlag
  split
  · rw [State.reg_setFlag, if_neg hz]
  · split
    · rw [State.reg_setFlag, if_neg hz]
    · rfl

/-- Settles O26: the sum is reduced by the width of `I`, and VF is `rangeFlag`'s, which sees the sum unreduced. -/
theorem addToIndexFlagsRange : Obligations.AddToIndexFlagsRange := by
  unfold Obligations.AddToIndexFlagsRange
  intro s x
  refine ⟨_, rfl, ?_, rangeFlag_reg_vf _ _, ?_, ?_, fun z hz => ?_, ?_⟩
  · rw [rangeFlag_only]; exact BitVec.toNat_ofNat _ 16
  · rw [rangeFlag_only]; rfl
  · rw [rangeFlag_only]; rfl
  · exact rangeFlag_reg_of_ne _ (List.ne_of_not_mem_cons hz)
  · rw [rangeFlag_only]; exact fun _ => rfl

/-! ### An ascending loop that leaves memory -/

theorem finish_fault {r : Except Fault State} {g : State → State} {f : Fault} : finish r g = .fault f ↔ r = .error f := by
  cases r <;> simp [finish]

/-- A loop whose turn `j` completes exactly if `base + j` lies inside memory, and is else the fault at that address, faults at
the first address out of range (R54, D20). -/
theorem forUp_faults_beyond {body : Nat → State → Except Fault State} {base n : Nat}
    (hinside : ∀ j u, u.cfg = s.cfg → base + j < u.cfg.memSize → ∃ v, body j u = .ok v ∧ v.cfg = s.cfg)
    (hbeyond : ∀ j u, u.cfg = s.cfg → u.cfg.memSize ≤ base + j → body j u = .error (.addrOutOfRange (base + j)))
    (hlast : s.cfg.memSize ≤ base + n) :
    forUp (n + 1) 0 body s = .error (.addrOutOfRange (max base s.cfg.memSize)) := by
  have hfirst : base + (max base s.cfg.memSize - base) = max base s.cfg.memSize := by omega
  refine forUp_faults (P := fun _ u => u.cfg = s.cfg) (m := max base s.cfg.memSize - base)
    (fun j u _ hj hu => hinside j u hu (by rw [hu]; omega)) (fun u hu => ?_) (Nat.zero_le _) (by omega) rfl
  rw [hbeyond _ u hu (by rw [hu]; omega), hfirst]

/-- The storing loop of FX33 and FX55, with a byte beyond memory. -/
theorem forUp_store_faults {base n : Nat} {val : Nat → State → Byte} (hlast : s.cfg.memSize ≤ base + n) :
    forUp (n + 1) 0 (fun j u => memWrite (base + j) (val j u) u) s =
      .error (.addrOutOfRange (max base s.cfg.memSize)) :=
  forUp_faults_beyond (fun _ _ hu hin => ⟨_, memWrite_ok hin, hu⟩) (fun _ _ _ hout => memWrite_fault hout) hlast

/-- One step of FX65's loop inside memory (R52, R145). -/
theorem loadReg_ok {base j : Nat} (hin : base + j < s.cfg.memSize) :
    loadReg base j s = .ok (s.setReg (regIndex j) (s.byteAt (base + j))) := by
  rw [loadReg, memRead_ok hin]

/-- FX65's loop, with a byte beyond memory. -/
theorem forUp_load_faults {base n : Nat} (hlast : s.cfg.memSize ≤ base + n) :
    forUp (n + 1) 0 (loadReg base) s = .error (.addrOutOfRange (max base s.cfg.memSize)) :=
  forUp_faults_beyond (fun _ _ hu hin => ⟨_, loadReg_ok hin, hu⟩)
    (fun _ _ _ hout => by rw [loadReg, memRead_fault hout]) hlast

/-- Settles O30: each of the three ends a loop over I, I + 1 and so on, which faults where it leaves memory. -/
theorem indexedAccessBeyondMemoryFaults : Obligations.IndexedAccessBeyondMemoryFaults := by
  unfold Obligations.IndexedAccessBeyondMemoryFaults
  refine fun s x => ⟨fun hlast => ?_, fun hlast => ⟨?_, ?_⟩⟩
  · exact finish_fault.mpr (forUp_store_faults (s := s.advance) hlast)
  · exact finish_fault.mpr (forUp_store_faults (s := s.advance) (val := fun j u => u.reg (regIndex j)) hlast)
  · exact finish_fault.mpr (forUp_load_faults (s := s.advance) hlast)

/-- DXYN's rows, one of which lies beyond memory: each row inside completes, clipped or not (R164, D19). -/
theorem drawRows_fault {base ox oy n : Nat} (hcfg : s.cfg.wf = true) (hlast : s.cfg.memSize ≤ base + n) :
    forUp (n + 1) 0 (drawRow base ox oy) s = .error (.addrOutOfRange (max base s.cfg.memSize)) := by
  refine forUp_faults_beyond (fun j u hu hin => ?_) (fun j u _ hout => by rw [drawRow, memRead_fault hout]) hlast
  obtain ⟨v, hv, hframe, -⟩ := drawBits_complete (s := u) (ox := ox) (oy := oy) (r := j) (n := 8)
    (b := u.byteAt (base + j)) (by rw [hu]; exact hcfg)
  exact ⟨v, by rw [drawRow, memRead_ok hin]; exact hv, hframe.cfg.trans hu⟩

/-- A DXYN without rows resets VF and presents (R161, D25). -/
theorem exec_drw_zero (x y : Nibble) (s : State) :
    exec (.drw x y 0) s = .next (presentUnlessDecoupled (s.advance.setFlag false)) := rfl

/-- Settles O36: the rows fault where they leave memory, and without rows VF alone is written before the present event. -/
theorem drawReadsEveryRow : Obligations.DrawReadsEveryRow := by
  unfold Obligations.DrawReadsEveryRow
  refine fun s x y n hcfg => ⟨fun hn hlast => finish_fault.mpr ?_, ?_⟩
  · obtain ⟨k, hk⟩ := Nat.exists_eq_succ_of_ne_zero fun h => hn (BitVec.eq_of_toNat_eq h)
    rw [hk] at hlast ⊢
    exact drawRows_fault (s := s.advance.setFlag false) hcfg hlast
  · rintro rfl
    refine ⟨_, exec_drw_zero x y s, ?_, by rw [presentUnlessDecoupled_only]; rfl,
      onlyDisplay_presentUnlessDecoupled rfl (fun z hz => ?_) (fun _ _ => rfl)⟩
    · rw [presentUnlessDecoupled_reg, State.reg_setFlag, if_pos rfl]; rfl
    · rw [State.reg_setFlag, if_neg (List.ne_of_not_mem_cons hz)]; rfl

end Sys2Proof.Machine
end

section
/-! O37, O38: which instructions present, by what each appends to the log, and the two key skips. -/

namespace Sys2Proof.Machine

variable {s : State} {x k : Nibble}

/-! ### The present events -/

theorem countP_present_ite (p : Prop) [Decidable p] (d : Diag) :
    (if p then [Output.diag d] else []).countP Output.isPresent = 0 := by
  split <;> rfl

/-- How many present events an instruction emits (R166): a diagnostic is none. -/
theorem emitted_presents (i : Instr) (s t : State) :
    (emitted i s t).countP Output.isPresent =
      if (i = .cls ∨ ∃ x y n, i = .drw x y n) ∧ s.cfg.decoupleDisplay = false then 1 else 0 := by
  cases i
  case cls | drw => cases h : s.cfg.decoupleDisplay <;> simp [emitted, h, Output.isPresent]
  case call | ret | skp | sknp => simp [emitted, countP_present_ite]
  all_goals simp [emitted]

/-- Settles O37: the present events after are those before and those emitted. -/
theorem onlyClearAndDrawPresent : Obligations.OnlyClearAndDrawPresent := by
  unfold Obligations.OnlyClearAndDrawPresent
  intro i s t h
  rw [State.presents, exec_out h, List.countP_append, emitted_presents, State.presents]

/-! ### The key skips -/

/-- A register that holds a key id names that key (R170, R171). -/
theorem namedKey_of_keyByte (h : s.reg x = keyByte k) : s.namedKey x = some k := by
  rw [State.namedKey, h, keyByte_toNat, if_neg (Nat.not_lt_of_le (Nat.le_of_lt_succ k.isLt))]
  exact congrArg some (regIndex_toNat k)

theorem exec_skp_of_named (h : s.namedKey x = some k) : exec (.skp x) s = .next (s.advance.skipIf (s.keyDown k)) := by
  simp only [exec, execSkp, h]

theorem exec_sknp_of_named (h : s.namedKey x = some k) : exec (.sknp x) s = .next (s.advance.skipIf (!s.keyDown k)) := by
  simp only [exec, execSknp, h]

theorem exec_skp_of_unnamed (h : s.namedKey x = none) :
    exec (.skp x) s = .next (diagnose .keyIndexOutOfRange (encode (.skp x)) s.pc s.advance) := by
  simp only [exec, execSkp, h]

theorem exec_sknp_of_unnamed (h : s.namedKey x = none) :
    exec (.sknp x) s = .next (diagnose .keyIndexOutOfRange (encode (.sknp x)) s.pc s.advance) := by
  simp only [exec, execSknp, h]

/-- A diagnostic logged on the advanced state is within its frame (R201). -/
theorem onlyPcAndDiag_diagnose (kind : DiagKind) (w : Word) (s : State) :
    OnlyPcAndDiag kind w s (diagnose kind w s.pc s.advance) := ⟨rfl, fun _ => rfl⟩

/-- Settles O38, by whether V[X] names a key. -/
theorem keySkips : Obligations.KeySkips := by
  unfold Obligations.KeySkips
  refine fun s x k => ⟨fun hkey => ?_, fun hrange => ?_⟩
  · have hnamed := namedKey_of_keyByte hkey
    refine ⟨⟨_, exec_skp_of_named hnamed, advance_skipIf_pc s _, onlyPc_advance_skipIf s _⟩,
      ⟨_, exec_sknp_of_named hnamed, ?_, onlyPc_advance_skipIf s _⟩⟩
    rw [advance_skipIf_pc]
    cases s.keyDown k <;> rfl
  · have hunnamed := namedKey_eq_none.mpr hrange
    exact ⟨⟨_, exec_skp_of_unnamed hunnamed, rfl, onlyPcAndDiag_diagnose _ _ s⟩,
      ⟨_, exec_sknp_of_unnamed hunnamed, rfl, onlyPcAndDiag_diagnose _ _ s⟩⟩

end Sys2Proof.Machine
end

section
/-! O45, O47, O50, O54: FX15 and the tick in one poll, a clock that runs backwards, the configuration, and the reset values. -/

namespace Sys2Proof.Machine

variable {s t : State} {now : Nat}

/-! ### The scheduler -/

theorem dispGate_dt (now : Nat) (s : State) : (dispGate now s).dt = s.dt := by rw [dispGate_only]

/-- Settles O45: FX15 leaves V[X] in DT and its gate leaves the timer gate due, whose tick then counts DT down. -/
theorem tickSeesTheTimerJustWritten : Obligations.TickSeesTheTimerJustWritten := by
  unfold Obligations.TickSeesTheTimerJustWritten
  intro s x now hfetch hinsn htimer
  have hexec : execute s = .next (s.advance.setDt (s.reg x)) := execute_of_decodes hfetch (decodeWord_encode rfl)
  refine ⟨_, poll_of_execute hinsn hexec, ?_⟩
  rw [dispGate_dt, timerGate_dt_toNat]
  exact if_pos htimer

/-- Settles O47: the iteration tests its sample of `now` before anything else. -/
theorem clockRunningBackwardsIsRefused : Obligations.ClockRunningBackwardsIsRefused := by
  unfold Obligations.ClockRunningBackwardsIsRefused
  intro s events now quit rest hrunning hturns hback
  rw [step_of_turn hrunning hturns]
  exact if_pos hback

/-! ### The configuration -/

theorem dispGate_cfg (now : Nat) (s : State) : (dispGate now s).cfg = s.cfg := by rw [dispGate_only]

theorem poll_cfg (h : poll now s = .next t) : t.cfg = s.cfg := by
  obtain ⟨u, hu, rfl⟩ := poll_next.mp h
  rw [dispGate_cfg, timerGate_cfg]
  exact (insnGate_frame hu).1

theorem iteration_cfg {events : List KeyEvent} {quit : Bool} (h : iteration events now quit s = .next t) :
    t.cfg = s.cfg := by
  obtain ⟨-, u, hu, rfl⟩ := iteration_next.mp h
  have hpolled : u.cfg = s.cfg := by rw [poll_cfg hu, State.sampleNow_cfg, drainEvents_only]
  cases quit <;> exact hpolled

theorem refresh_cfg (s : State) : (refresh s).cfg = s.cfg := by
  unfold refresh; split <;> rfl

theorem perform_cfg {a : Action} (h : perform a s = .next t) : t.cfg = s.cfg := by
  cases a with
  | execute => exact (execute_frame h).cfg
  | key e => rw [← Host.Outcome.next.inj h, keyEvent_only]
  | tick => exact Host.Outcome.next.inj h ▸ rfl
  | refresh => exact Host.Outcome.next.inj h ▸ refresh_cfg s
  | stop => exact Host.Outcome.next.inj h ▸ rfl

theorem takeTurn_cfg {turn : Turn} (h : takeTurn turn s = .next t) : t.cfg = s.cfg := by
  cases turn with
  | iteration events now quit => exact iteration_cfg h
  | act a => exact perform_cfg h

/-- Settles O50: a step is nothing, an executor invocation or a host's turn, and each leaves the configuration. -/
theorem stepKeepsConfiguration : Obligations.StepKeepsConfiguration := by
  unfold Obligations.StepKeepsConfiguration
  intro s t h
  rcases step_cases h with ⟨-, rfl⟩ | ⟨-, -, h⟩ | ⟨turn, rest, -, -, h⟩
  · rfl
  · exact (execute_frame h).cfg
  · exact takeTurn_cfg (s := s.setTurns rest) h

/-! ### Reset -/

theorem powerOn_reg (cfg : Config) (x : Nibble) : (State.powerOn cfg).reg x = 0 := Vector.getElem_replicate x.isLt

theorem powerOn_keyDown (cfg : Config) (k : Nibble) : (State.powerOn cfg).keyDown k = false :=
  Vector.getElem_replicate k.isLt

/-- Settles O54: the power-on state under the standard configuration, which is an admitted one. -/
theorem resetValues : Obligations.ResetValues := by
  unfold Obligations.ResetValues
  exact ⟨powerOn_pc_toNat (by decide), rfl, powerOn_reg _, rfl, rfl, rfl, rfl, powerOn_keyDown _, rfl⟩

end Sys2Proof.Machine
end
